-- ==== Sys2Proof/Word.lean ====
section
/-! DEFINITION. The word, address and register-index types of RAS16 (00_scope.md rules R5 and R7). -/

namespace Sys2Proof

/-- A `bits16` pattern: a general register, a memory cell, `IR`, an instruction (R5 `XLEN`). -/
abbrev Word := BitVec 16

/-- A `bits8` pattern: `PC`, `DS`, and the number of a memory cell (R5 `PC_WIDTH`, `DS_WIDTH`, `ADDR_WIDTH`). -/
abbrev Addr := BitVec 8

/-- The index of a general register, 0 to 7 (R10; `Ax` is 0 and `Hx` is 7). -/
abbrev RegIdx := Fin 8

end Sys2Proof
end

