-- ==== Sys2Proof/Syntax.lean ====
section
/-! DEFINITION. The 16 instructions (30_encoding.md rules R69 and R75), with only the fields each one has. -/

namespace Sys2Proof

/-- One constructor per row of spec/opcode_table.json.  A jump offset and LOADI's immediate are integers,
as Decode gives them (R72, R75); their ranges are `wellFormed`'s. -/
inductive Instr where
  /-- ADD `rd rs1 rs2` (R120) -/
  | add (rd rs1 rs2 : RegIdx)
  /-- SUB `rd rs1 rs2` (R121) -/
  | sub (rd rs1 rs2 : RegIdx)
  /-- AND `rd rs1 rs2` (R131) -/
  | and (rd rs1 rs2 : RegIdx)
  /-- OR `rd rs1 rs2` (R132) -/
  | or (rd rs1 rs2 : RegIdx)
  /-- XOR `rd rs1 rs2` (R133) -/
  | xor (rd rs1 rs2 : RegIdx)
  /-- NOT `rd rs1` (R134) -/
  | not (rd rs1 : RegIdx)
  /-- SHL `rd rs1` (R135) -/
  | shl (rd rs1 : RegIdx)
  /-- SHR `rd rs1` (R136) -/
  | shr (rd rs1 : RegIdx)
  /-- LOAD `rd rs1` (R141): `rs1` holds the address -/
  | load (rd rs1 : RegIdx)
  /-- CMP `rs1 rs2` (R122) -/
  | cmp (rs1 rs2 : RegIdx)
  /-- STORE `rs1 rs2` (R142): `rs1` holds the address, `rs2` the value -/
  | store (rs1 rs2 : RegIdx)
  /-- JUMP `n` (R151) -/
  | jump (n : Int)
  /-- JZ `n` (R152) -/
  | jz (n : Int)
  /-- JNZ `n` (R153) -/
  | jnz (n : Int)
  /-- LOADI `n` (R160) -/
  | loadi (n : Int)
  /-- NOP (R161) -/
  | nop
  deriving DecidableEq, Repr

end Sys2Proof
end

