-- ==== Sys2Proof/WellFormed.lean ====
section
/-! DEFINITION. Which instructions have an encoding: the immediate fits its field (30_encoding.md rules R72, R84).
Every register index is legal in every register field (R71), which the type `RegIdx` already says. -/

namespace Sys2Proof

/-- The range of the jump-class offset field, `IMM8` of R5. -/
def fitsImm8 (n : Int) : Bool := decide (-128 ≤ n) && decide (n ≤ 127)

/-- The range of the LOADI immediate field, `IMM12` of R5. -/
def fitsImm12 (n : Int) : Bool := decide (-2048 ≤ n) && decide (n ≤ 2047)

/-- The instruction is one that some word encodes; the assembler's only range check (R84). -/
def wellFormed : Instr → Bool
  | .add _ _ _ => true
  | .sub _ _ _ => true
  | .and _ _ _ => true
  | .or _ _ _ => true
  | .xor _ _ _ => true
  | .not _ _ => true
  | .shl _ _ => true
  | .shr _ _ => true
  | .load _ _ => true
  | .cmp _ _ => true
  | .store _ _ => true
  | .jump n => fitsImm8 n
  | .jz n => fitsImm8 n
  | .jnz n => fitsImm8 n
  | .loadi n => fitsImm12 n
  | .nop => true

end Sys2Proof
end

