-- ==== Sys2Proof/Decode.lean ====
section
/-! DEFINITION. Decode, total on all 65536 words (30_encoding.md rule R75), and the encoder that gives the
canonical word of an instruction, every unused bit 0 (R69, R82). -/

namespace Sys2Proof

/-- The 3-bit register field whose lowest bit is `lo` (R71). -/
def regField (lo : Nat) (w : Word) : RegIdx := (w.extractLsb' lo 3).toFin

/-- `sval(w[7:0])` (R72). -/
def imm8Field (w : Word) : Int := (w.extractLsb' 0 8).toInt

/-- `sval(w[11:0])` (R72). -/
def imm12Field (w : Word) : Int := (w.extractLsb' 0 12).toInt

/-- The opcode, `w[15:12]`; it alone selects the instruction (R62). -/
def opcodeField (w : Word) : Fin 16 := (w.extractLsb' 12 4).toFin

/-- Decode (R75, with the field extraction of R103).  Bits a format leaves unused are not read (R74), and there
is no illegal word. -/
def decode (w : Word) : Instr :=
  let rd := regField 9 w
  let rs1 := regField 6 w
  let rs2 := regField 3 w
  match opcodeField w with
  | 0 => .add rd rs1 rs2
  | 1 => .sub rd rs1 rs2
  | 2 => .and rd rs1 rs2
  | 3 => .or rd rs1 rs2
  | 4 => .xor rd rs1 rs2
  | 5 => .not rd rs1
  | 6 => .shl rd rs1
  | 7 => .shr rd rs1
  | 8 => .load rd rs1
  | 9 => .cmp rs1 rs2
  | 10 => .store rs1 rs2
  | 11 => .jump (imm8Field w)
  | 12 => .jz (imm8Field w)
  | 13 => .jnz (imm8Field w)
  | 14 => .loadi (imm12Field w)
  | 15 => .nop
  | ⟨_ + 16, h⟩ => absurd h (by omega)

/-- The opcode of each instruction (R69). -/
def opcodeOf : Instr → BitVec 4
  | .add _ _ _ => 0#4
  | .sub _ _ _ => 1#4
  | .and _ _ _ => 2#4
  | .or _ _ _ => 3#4
  | .xor _ _ _ => 4#4
  | .not _ _ => 5#4
  | .shl _ _ => 6#4
  | .shr _ _ => 7#4
  | .load _ _ => 8#4
  | .cmp _ _ => 9#4
  | .store _ _ => 10#4
  | .jump _ => 11#4
  | .jz _ => 12#4
  | .jnz _ => 13#4
  | .loadi _ => 14#4
  | .nop => 15#4

/-- The 3-bit code of a register (R10). -/
def regBits (r : RegIdx) : BitVec 3 := BitVec.ofNat 3 r.val

/-- Format R3 (R63): opcode, `rd`, `rs1`, `rs2`, 000. -/
def formatR3 (op : BitVec 4) (rd rs1 rs2 : RegIdx) : Word :=
  op ++ regBits rd ++ regBits rs1 ++ regBits rs2 ++ 0#3

/-- Format R2 (R64): opcode, `rd`, `rs1`, 000000. -/
def formatR2 (op : BitVec 4) (rd rs1 : RegIdx) : Word :=
  op ++ regBits rd ++ regBits rs1 ++ 0#6

/-- Format RS (R65): opcode, 000, `rs1`, `rs2`, 000. -/
def formatRS (op : BitVec 4) (rs1 rs2 : RegIdx) : Word :=
  op ++ 0#3 ++ regBits rs1 ++ regBits rs2 ++ 0#3

/-- Format J (R66): opcode, 0000, `pat_8(n)`. -/
def formatJ (op : BitVec 4) (n : Int) : Word :=
  op ++ 0#4 ++ BitVec.ofInt 8 n

/-- Format I (R67): opcode, `pat_12(n)`. -/
def formatI (op : BitVec 4) (n : Int) : Word :=
  op ++ BitVec.ofInt 12 n

/-- Format N (R68, decision D9): opcode, twelve zeros. -/
def formatN (op : BitVec 4) : Word :=
  op ++ 0#12

/-- The canonical word of an instruction (R69); meant for a well-formed one. -/
def encode (i : Instr) : Word :=
  match i with
  | .add rd rs1 rs2 => formatR3 (opcodeOf i) rd rs1 rs2
  | .sub rd rs1 rs2 => formatR3 (opcodeOf i) rd rs1 rs2
  | .and rd rs1 rs2 => formatR3 (opcodeOf i) rd rs1 rs2
  | .or rd rs1 rs2 => formatR3 (opcodeOf i) rd rs1 rs2
  | .xor rd rs1 rs2 => formatR3 (opcodeOf i) rd rs1 rs2
  | .not rd rs1 => formatR2 (opcodeOf i) rd rs1
  | .shl rd rs1 => formatR2 (opcodeOf i) rd rs1
  | .shr rd rs1 => formatR2 (opcodeOf i) rd rs1
  | .load rd rs1 => formatR2 (opcodeOf i) rd rs1
  | .cmp rs1 rs2 => formatRS (opcodeOf i) rs1 rs2
  | .store rs1 rs2 => formatRS (opcodeOf i) rs1 rs2
  | .jump n => formatJ (opcodeOf i) n
  | .jz n => formatJ (opcodeOf i) n
  | .jnz n => formatJ (opcodeOf i) n
  | .loadi n => formatI (opcodeOf i) n
  | .nop => formatN (opcodeOf i)

/-- The instruction word that a table row's bits stand for: the row's `nbits` low bits of `w`, every bit above
them 0.  An instruction is exactly one 16-bit word (R60). -/
def tableWord (nbits w : Nat) : Word := BitVec.ofNat 16 (w % 2 ^ nbits)

/-- What the decoder reads from a word numbered as spec/opcode_table.json numbers it; it refuses none (R74). -/
def decodeTableWord (nbits w : Nat) : Option Instr := some (decode (tableWord nbits w))

end Sys2Proof
end

