-- ==== Sys2Proof/Config.lean ====
section
/-! DEFINITION. The parameters the spec fixes (00_scope.md rule R5) and the free values it leaves open.
A free value is a constant with no body: no proof can see what it is. -/

namespace Sys2Proof

/-- `MEM_SIZE` of R5 (decision D3): the number of memory cells. -/
abbrev Config.memSize : Nat := 256

/-- `MAX_PROG` of R5 (decision D5): the longest program, in words, that Load accepts. -/
abbrev Config.maxProg : Nat := 255

/-- `MAXV` of R5: the upper clamp bound of a checked write. -/
abbrev Config.maxV : Int := 32767

/-- `THRESH` of R5: the clamp target of a negative checked write, a positive number (R13). -/
abbrev Config.thresh : Int := 32768

/-- FREE VALUE. What `PC + 1` leaves in `PC` when `PC` is 255: the spec states no value and shows that no
Step reaches the case (R19, U3).  DESIGN CHOICE, safe (log entry 6). -/
opaque Config.pcPastTop : Addr

/-- FREE VALUE. Whether the hex view prints `A`..`F` in capitals: not stated (U9).
DESIGN CHOICE, safe (log entry 14). -/
opaque Config.hexUpperCase : Bool

end Sys2Proof
end

