-- ==== Sys2Proof/Machine/State.lean ====
section
/-! DEFINITION. The architectural state (10_state.md rule R29), the reasons a step can stop, and the state after
Reset (R28). -/

namespace Sys2Proof.Machine

/-- The four one-bit flags (R22). -/
structure Flags where
  /-- `F.ovf`, flag index 0 -/
  ovf : Bool
  /-- `F.carry`, flag index 1 -/
  carry : Bool
  /-- `F.zero`, flag index 2 -/
  zero : Bool
  /-- `F.sign`, flag index 3 -/
  sign : Bool
  deriving DecidableEq, Repr

/-- The memory `MEM`: the cells that differ from `Memory.unlisted`, by rising address.  A cell is a whole 16-bit
word, the smallest thing an address names (R40, R45), so the value half of a pair is a word, not a byte
(DESIGN CHOICE, safe, log entry 1). -/
abbrev Memory := List (Nat × Word)

/-- What a cell that the list does not name reads as.  With 0 here every content of the 256 cells is exactly one
canonical list; that `State.reset` lists nothing is the choice of log entry 3 (DESIGN CHOICE, unsafe). -/
abbrev Memory.unlisted : Word := 0#16

/-- The canonical form from address `lo` on: addresses strictly rising and below `MEM_SIZE`, no cell listed with
the unlisted value. -/
def Memory.wfFrom (lo : Nat) : Memory → Bool
  | [] => true
  | (a, v) :: rest =>
    decide (lo ≤ a) && decide (a < Config.memSize) && (v != Memory.unlisted) && Memory.wfFrom (a + 1) rest

/-- The memory is in its canonical form. -/
def Memory.wf (m : Memory) : Bool := Memory.wfFrom 0 m

/-- The state tuple of R29, and one field of the model's own. -/
structure State where
  /-- the general registers `x[0]` (`Ax`) to `x[7]` (`Hx`) (R10) -/
  x : Vector Word 8
  /-- the flags `F` (R22) -/
  f : Flags
  /-- the program counter `PC`, unsigned (R17) -/
  pc : Addr
  /-- the instruction register `IR`: the word the next Step decodes (R20) -/
  ir : Word
  /-- the data-segment boundary `DS`, unsigned (R21) -/
  ds : Addr
  /-- the memory `MEM` (R40) -/
  mem : Memory
  /-- THE MODEL'S OWN: a Load has succeeded since Reset.  R190 has a model refuse a Step before the first Load
  (DESIGN CHOICE, safe, log entry 4). -/
  loaded : Bool
  deriving DecidableEq, Repr

/-- The cause labels of a segment violation (R171, decision D16). -/
inductive Cause where
  /-- LOAD's address is outside the data segment (R141) -/
  | loadAddress
  /-- STORE's address is outside the data segment (R142) -/
  | storeAddress
  /-- a taken jump's target is outside the code segment (R150) -/
  | jumpTarget
  deriving DecidableEq, Repr

/-- "Two error kinds only" (R170). -/
inductive Fault where
  /-- SegmentViolation(k): raised by LOAD, STORE, JUMP, taken JZ and taken JNZ through `raiseViolation` (R171).
  The spec's own error, and nothing is written: safe. -/
  | segmentViolation (k : Cause)
  /-- AssemblyFailure: raised by the host's Load of text, never by a Step (R177).  Nothing is written: safe. -/
  | assemblyFailure
  deriving DecidableEq, Repr

/-- What the model gives no transition to. -/
inductive Refusal where
  /-- An instruction whose arm of `exec` has no meaning yet; no arm of this model is so.  Safe: nothing runs. -/
  | notModelled (mnemonic : String)
  /-- A Step before the first Load: raised by `step`; outside the contract (R190, U2).  Safe. -/
  | stepBeforeLoad
  /-- A Step when the program has finished, `PC = DS`: raised by `step`; outside the contract (R193, U2).  Safe. -/
  | programFinished
  /-- A Load of more than `MAX_PROG` words: raised by `loadImage`, never by a Step (R191, U3).  Safe. -/
  | programTooLong
  deriving DecidableEq, Repr

/-- What a meaning, a Step or a Load answers. -/
abbrev Result := Host.Outcome State Fault Refusal

/-- The state right after Reset.  `PC` is 0 (R28); the spec gives nothing else a value (`INIT`), so every other
field is the model's choice: DESIGN CHOICE, unsafe (log entries 2, 3, 4).  `State.resetWith` is Reset at any `INIT`. -/
def State.reset : State where
  x := Vector.replicate 8 0#16
  f := ⟨false, false, false, false⟩
  pc := 0#8
  ir := 0#16
  ds := 0#8
  mem := []
  loaded := false

end Sys2Proof.Machine
end

