-- ==== Sys2Proof/Machine/Ops.lean ====
section
/-! DEFINITION. The named operations over memory, registers and `PC`, raising a segment violation, and Fetch. -/

namespace Sys2Proof.Machine

/-- The cell at key `a` of a list in canonical form. -/
def Memory.get : Memory → Nat → Word
  | [], _ => Memory.unlisted
  | (b, v) :: rest, a => if a = b then v else Memory.get rest a

/-- Replace the cell at key `a`, keeping the canonical form: the unlisted value is not listed. -/
def Memory.put : Memory → Nat → Word → Memory
  | [], a, v => if v = Memory.unlisted then [] else [(a, v)]
  | (b, u) :: rest, a, v =>
    if a < b then
      if v = Memory.unlisted then (b, u) :: rest else (a, v) :: (b, u) :: rest
    else if a = b then
      if v = Memory.unlisted then rest else (a, v) :: rest
    else (b, u) :: Memory.put rest a v

/-- `MemRead(a, 1)` (R46): the whole cell, no side effect. -/
def Memory.read (m : Memory) (a : Addr) : Word := Memory.get m a.toNat

/-- `MemWrite(a, 1, v)` (R46): the whole cell. -/
def Memory.write (m : Memory) (a : Addr) (v : Word) : Memory := Memory.put m a.toNat v

/-- Raw writes of a list of words to consecutive cells from key `a` on (R191). -/
def Memory.writeImage (m : Memory) (a : Nat) : List Word → Memory
  | [] => m
  | w :: ws => Memory.writeImage (Memory.put m a w) (a + 1) ws

/-- Read of general register `r` as a pattern (R8).  None is hard-wired (R11). -/
def State.reg (s : State) (r : RegIdx) : Word := s.x[r.val]

/-- Write of the pattern `p` to general register `r` (R8, R11). -/
def State.setReg (s : State) (r : RegIdx) (p : Word) : State := { s with x := s.x.set r.val p }

/-- Write of all four flags, plain bits (R24). -/
def State.setFlags (s : State) (f : Flags) : State := { s with f := f }

/-- Write of `PC`, plain 8 bits (R17). -/
def State.setPc (s : State) (a : Addr) : State := { s with pc := a }

/-- STORE's write of one cell (R142). -/
def State.writeMem (s : State) (a : Addr) (v : Word) : State := { s with mem := s.mem.write a v }

/-- `PC + 1`.  At 255 the spec gives no value and no Step reaches it (R19, U3): a free value
(DESIGN CHOICE, safe, log entry 6). -/
def nextPc (pc : Addr) : Addr := if pc = 255#8 then Config.pcPastTop else pc + 1#8

/-- `pc <- PC + 1` (R18). -/
def State.advance (s : State) : State := s.setPc (nextPc s.pc)

/-- TAKING THE ONE EXCEPTION (R174): there is no handler, no vector, no saved `PC`, no mode change and no return
(R175); the error goes to the host as the result of the Step, and nothing is written (R107).
So the outcome carries the cause and no state. -/
def raiseViolation (k : Cause) : Result := .fault (.segmentViolation k)

/-- `JumpTo(n)` (R150): the sum is over the integers and is tested before it is written; no wrap, no extra 1. -/
def jumpTo (n : Int) (s : State) : Result :=
  let t : Int := (s.pc.toNat : Int) + n
  if 0 ≤ t ∧ t < (s.ds.toNat : Int) then .next (s.setPc (BitVec.ofInt 8 t))
  else raiseViolation .jumpTarget

/-- Fetch (R47, R105): `IR <- MEM[PC]`, a raw write with no segment test. -/
def State.fetch (s : State) : State := { s with ir := s.mem.read s.pc }

/-- The Done condition, `PC = DS` (R193). -/
def State.done (s : State) : Bool := s.pc == s.ds

/-- Why the contract allows no Step in this state, if it allows none: a Step is defined after a Load (R190) and
for `PC < DS` (R193).  `PC > DS` is never reached (R19) and is refused like `PC = DS`
(DEDUCED, safe, log entry 5). -/
def stepBar (s : State) : Option Refusal :=
  if s.loaded = false then some .stepBeforeLoad
  else if s.pc.toNat < s.ds.toNat then none
  else some .programFinished

/-- Fetch after a successful Execute (R101); a violation does not reach it (R107). -/
def fetchAfter : Result → Result
  | .next s => .next s.fetch
  | .fault r => .fault r
  | .refused r => .refused r

/-- The state in which the instruction word `w` is the one the next Step decodes: `w` in the cell at `PC` and in
`IR` (R20), a program loaded, and `PC < DS`.  `PC` and `DS` stay where the contract already allows a Step; else
`DS` becomes `PC + 1`, and at `PC = 255`, which no `DS` exceeds, `PC` becomes 0 and `DS` 1 (log entry 10). -/
def placeWord (s : State) (w : Word) : State :=
  let pc : Addr := if s.pc = 255#8 then 0#8 else s.pc
  let ds : Addr := if pc.toNat < s.ds.toNat then s.ds else pc + 1#8
  { s with pc := pc, ds := ds, mem := s.mem.write pc w, ir := w, loaded := true }

/-- The state a Load or Step leaves: the next state, or on an error the state before it (R107, R177). -/
def stateAfter (s : State) : Result → State
  | .next t => t
  | .fault _ => s
  | .refused _ => s

end Sys2Proof.Machine
end

