-- ==== Sys2Proof/Machine/Operands.lean ====
section
/-! DEFINITION. The two write modes (10_state.md rules R14, R15), the signed reading of a cell (R12), and the one
addressing mode (43_load_store.md rule R140). -/

namespace Sys2Proof.Machine

/-- `sval(p)`: the number a 16-bit cell holds (R7, R12; decision D2, log entry 8). -/
def sval (p : Word) : Int := p.toInt

/-- The number in general register `r` (R12). -/
def State.sreg (s : State) (r : RegIdx) : Int := sval (s.reg r)

/-- The return discriminant of a checked write (R14). -/
inductive Clamp where
  /-- `Ok`: the value was stored as it is -/
  | ok
  /-- `ClampedHigh`: "positive overflow" -/
  | clampedHigh
  /-- `ClampedLow`: "negative overflow" -/
  | clampedLow
  deriving DecidableEq, Repr

/-- `Raw(v)`, `pat_16(v)` (R15). -/
def raw (v : Int) : Word := BitVec.ofInt 16 v

/-- The outcome of a checked write: every negative value clamps (R14). -/
def clampOf (v : Int) : Clamp :=
  if v > Config.maxV then .clampedHigh else if v < 0 then .clampedLow else .ok

/-- The pattern a checked write stores (R14). -/
def checked (v : Int) : Word :=
  match clampOf v with
  | .clampedHigh => raw Config.maxV
  | .clampedLow => raw Config.thresh
  | .ok => raw v

/-- `DataAddr(rs)` (R140): the register's signed value, if it lies in the data segment. -/
def dataAddr (s : State) (rs : RegIdx) : Option Addr :=
  let a := s.sreg rs
  if (s.ds.toNat : Int) ≤ a ∧ a < (Config.memSize : Int) then some (BitVec.ofInt 8 a) else none

end Sys2Proof.Machine
end

