-- ==== Sys2Proof/Machine/Flags.lean ====
section
/-! DEFINITION. The two flag computations (41_arithmetic.md rule R123, 42_logic_shift.md rule R130), AND's extra
write (R131), and the replaceable shift functions of decision D8. -/

namespace Sys2Proof.Machine

/-- The flags of `ArithResult(r)` (R123).  In the `ok` arm `r < 0` is never true (R123, C3). -/
def arithFlags (r : Int) : Flags :=
  match clampOf r with
  | .ok => { ovf := false, carry := false, zero := decide (r = 0), sign := decide (r < 0) }
  | .clampedHigh => { ovf := true, carry := true, zero := false, sign := false }
  | .clampedLow => { ovf := true, carry := true, zero := false, sign := true }

/-- The flags of `BitResult(p)` (R130): `zero` and `sign` from the pattern, `ovf` and `carry` kept. -/
def bitFlags (f : Flags) (p : Word) : Flags := { f with zero := p == 0#16, sign := p.msb }

/-- AND "additionally forces `ovf=0, carry=0`" (R131). -/
def clearOvfCarry (f : Flags) : Flags := { f with ovf := false, carry := false }

/-- The semantics of SHL and SHR as a named configuration (U4, decision D8): the source states none, and a claim
about a shift rests on D8. -/
structure ShiftConfig where
  /-- the pattern SHL writes -/
  shl16 : Word → Word
  /-- the pattern SHR writes -/
  shr16 : Word → Word
  /-- the flags both leave, from the flags before and the pattern written -/
  flags : Flags → Word → Flags

/-- The spec's default: R135 (`s[14:0] : 0b0`) and R136 (`0b0 : s[15:1]`), flags by R130.
UNVERIFIED of the original hardware, unsafe as to it (log entry 7). -/
def shiftConfig : ShiftConfig where
  shl16 p := p.extractLsb' 0 15 ++ 0#1
  shr16 p := 0#1 ++ p.extractLsb' 1 15
  flags := bitFlags

end Sys2Proof.Machine
end

