-- ==== Sys2Proof/Machine/Arithmetic.lean ====
section
/-! DEFINITION. ADD, SUB, CMP (41_arithmetic.md). -/

namespace Sys2Proof.Machine

/-- The flags of `ArithResult(r)`, then `PC + 1`, in a state whose destination is already written. -/
def finishArith (r : Int) (s : State) : Result := .next (s.setFlags (arithFlags r)).advance

/-- ADD `rd rs1 rs2` (R120). -/
def execAdd (rd rs1 rs2 : RegIdx) (s : State) : Result :=
  let r := s.sreg rs1 + s.sreg rs2
  finishArith r (s.setReg rd (checked r))

/-- SUB `rd rs1 rs2` (R121). -/
def execSub (rd rs1 rs2 : RegIdx) (s : State) : Result :=
  let r := s.sreg rs1 - s.sreg rs2
  finishArith r (s.setReg rd (checked r))

/-- CMP `rs1 rs2` (R122): the pattern is dropped. -/
def execCmp (rs1 rs2 : RegIdx) (s : State) : Result :=
  finishArith (s.sreg rs1 - s.sreg rs2) s

end Sys2Proof.Machine
end

