-- ==== Sys2Proof/Machine/Control.lean ====
section
/-! DEFINITION. JUMP, JZ, JNZ (44_control.md). -/

namespace Sys2Proof.Machine

/-- JUMP `n` (R151). -/
def execJump (n : Int) (s : State) : Result := jumpTo n s

/-- JZ `n` (R152): a branch not taken never violates. -/
def execJz (n : Int) (s : State) : Result := if s.f.zero = true then jumpTo n s else .next s.advance

/-- JNZ `n` (R153). -/
def execJnz (n : Int) (s : State) : Result := if s.f.zero = false then jumpTo n s else .next s.advance

end Sys2Proof.Machine
end

