-- ==== Sys2Proof/Machine/LoadStore.lean ====
section
/-! DEFINITION. LOAD, STORE (43_load_store.md). -/

namespace Sys2Proof.Machine

/-- LOAD `rd rs1` (R141): the checked write's outcome is dropped and no flag is written (C7). -/
def execLoad (rd rs1 : RegIdx) (s : State) : Result :=
  match dataAddr s rs1 with
  | some a => .next (s.setReg rd (checked (sval (s.mem.read a)))).advance
  | none => raiseViolation .loadAddress

/-- STORE `rs1 rs2` (R142): a raw write of the pattern. -/
def execStore (rs1 rs2 : RegIdx) (s : State) : Result :=
  match dataAddr s rs1 with
  | some a => .next (s.writeMem a (s.reg rs2)).advance
  | none => raiseViolation .storeAddress

end Sys2Proof.Machine
end

