-- ==== Sys2Proof/Machine/LogicShift.lean ====
section
/-! DEFINITION. AND, OR, XOR, NOT, SHL, SHR (42_logic_shift.md). -/

namespace Sys2Proof.Machine

/-- Raw write of `p` to `x[rd]`, the flags `f`, `PC + 1`. -/
def finishBits (rd : RegIdx) (p : Word) (f : Flags) (s : State) : Result :=
  .next ((s.setReg rd p).setFlags f).advance

/-- AND `rd rs1 rs2` (R131). -/
def execAnd (rd rs1 rs2 : RegIdx) (s : State) : Result :=
  let p := s.reg rs1 &&& s.reg rs2
  finishBits rd p (clearOvfCarry (bitFlags s.f p)) s

/-- OR `rd rs1 rs2` (R132). -/
def execOr (rd rs1 rs2 : RegIdx) (s : State) : Result :=
  let p := s.reg rs1 ||| s.reg rs2
  finishBits rd p (bitFlags s.f p) s

/-- XOR `rd rs1 rs2` (R133). -/
def execXor (rd rs1 rs2 : RegIdx) (s : State) : Result :=
  let p := s.reg rs1 ^^^ s.reg rs2
  finishBits rd p (bitFlags s.f p) s

/-- NOT `rd rs1` (R134). -/
def execNot (rd rs1 : RegIdx) (s : State) : Result :=
  let p := ~~~ s.reg rs1
  finishBits rd p (bitFlags s.f p) s

/-- SHL `rd rs1` (R135, decision D8). -/
def execShl (rd rs1 : RegIdx) (s : State) : Result :=
  let p := shiftConfig.shl16 (s.reg rs1)
  finishBits rd p (shiftConfig.flags s.f p) s

/-- SHR `rd rs1` (R136, decision D8). -/
def execShr (rd rs1 : RegIdx) (s : State) : Result :=
  let p := shiftConfig.shr16 (s.reg rs1)
  finishBits rd p (shiftConfig.flags s.f p) s

end Sys2Proof.Machine
end

