-- ==== Sys2Proof/Machine/Misc.lean ====
section
/-! DEFINITION. LOADI, NOP (45_misc.md). -/

namespace Sys2Proof.Machine

/-- LOADI `n` (R160): a raw write, always of `x[0]`; no flag. -/
def execLoadi (n : Int) (s : State) : Result := .next (s.setReg 0 (raw n)).advance

/-- NOP (R161). -/
def execNop (s : State) : Result := .next s.advance

end Sys2Proof.Machine
end

