-- ==== Sys2Proof/Machine/Dispatch.lean ====
section
/-! DEFINITION. Execute: the dispatch of 40_cycle.md rule R104, one arm per instruction. -/

namespace Sys2Proof.Machine

def exec (i : Instr) (s : State) : Host.Outcome State Fault Refusal :=
  match i with
  | .add rd rs1 rs2 => Sys2Proof.Machine.execAdd rd rs1 rs2 s
  | .sub rd rs1 rs2 => Sys2Proof.Machine.execSub rd rs1 rs2 s
  | .and rd rs1 rs2 => Sys2Proof.Machine.execAnd rd rs1 rs2 s
  | .or rd rs1 rs2 => Sys2Proof.Machine.execOr rd rs1 rs2 s
  | .xor rd rs1 rs2 => Sys2Proof.Machine.execXor rd rs1 rs2 s
  | .not rd rs1 => Sys2Proof.Machine.execNot rd rs1 s
  | .shl rd rs1 => Sys2Proof.Machine.execShl rd rs1 s
  | .shr rd rs1 => Sys2Proof.Machine.execShr rd rs1 s
  | .load rd rs1 => Sys2Proof.Machine.execLoad rd rs1 s
  | .cmp rs1 rs2 => Sys2Proof.Machine.execCmp rs1 rs2 s
  | .store rs1 rs2 => Sys2Proof.Machine.execStore rs1 rs2 s
  | .jump n => Sys2Proof.Machine.execJump n s
  | .jz n => Sys2Proof.Machine.execJz n s
  | .jnz n => Sys2Proof.Machine.execJnz n s
  | .loadi n => Sys2Proof.Machine.execLoadi n s
  | .nop => Sys2Proof.Machine.execNop s

end Sys2Proof.Machine
end

