-- ==== Sys2Proof/Machine/Step.lean ====
section
/-! DEFINITION. One Step (40_cycle.md rule R101), and the placing of an instruction word for it. -/

namespace Sys2Proof.Machine

/-- One Step: Decode and OperandSearch on `IR`, Execute, and Fetch of the next word if Execute did not raise
(R101).  Where the contract allows no Step it is refused by name (R190, R193). -/
def step (s : State) : Host.Outcome State Fault Refusal :=
  match stepBar s with
  | some r => .refused r
  | none => fetchAfter (exec (decode s.ir) s)

/-- `s` with the instruction of a table row, numbered as spec/opcode_table.json numbers its bits, as the one the
next Step runs (log entry 10). -/
def State.withFetchWord (s : State) (nbits w : Nat) : State := placeWord s (tableWord nbits w)

end Sys2Proof.Machine
end

