-- ==== Sys2Proof/Machine/Assembler.lean ====
section
/-! DEFINITION. The assembler that runs in the host at Load time (30_encoding.md rules R80 to R86): text lines to
words.  It accepts exactly the syntaxes of R83 and refuses every other line (decision D19). -/

namespace Sys2Proof.Machine

/-- One line of program text. -/
abbrev Line := List Char

/-- One white-space separated piece of a line. -/
abbrev Token := List Char

/-- White space within a line: a space or a tab (DESIGN CHOICE, safe, log entry 12). -/
def isSpace (c : Char) : Bool := c == ' ' || c == '\t'

/-- The pieces of a line between single white-space characters, empty ones included. -/
def pieces : Line → List Token
  | [] => [[]]
  | c :: cs =>
    if isSpace c then [] :: pieces cs
    else
      match pieces cs with
      | [] => [[c]]
      | p :: ps => (c :: p) :: ps

/-- Does the line begin or end with white space?  Such a line is refused (N14; log entry 12). -/
def hasOuterSpace (l : Line) : Bool := (l.head?.any isSpace) || (l.getLast?.any isSpace)

/-- "whitespace-tokenized" (R80). -/
def tokenize (l : Line) : Option (List Token) :=
  if hasOuterSpace l then none else some ((pieces l).filter (fun p => !p.isEmpty))

/-- The register names of R10; no other spelling is accepted (R81, U5).  `Bx` to `Gx` are the spec's inference
(N7, log entry 15). -/
def parseReg : Token → Option RegIdx
  | ['A', 'x'] => some 0
  | ['B', 'x'] => some 1
  | ['C', 'x'] => some 2
  | ['D', 'x'] => some 3
  | ['E', 'x'] => some 4
  | ['F', 'x'] => some 5
  | ['G', 'x'] => some 6
  | ['H', 'x'] => some 7
  | _ => none

/-- The value of a decimal digit. -/
def digitVal (c : Char) : Option Nat :=
  if '0' ≤ c ∧ c ≤ '9' then some (c.toNat - '0'.toNat) else none

/-- Decimal digits read on from the value `acc`. -/
def parseDigits (acc : Nat) : Token → Option Nat
  | [] => some acc
  | c :: cs =>
    match digitVal c with
    | some d => parseDigits (acc * 10 + d) cs
    | none => none

/-- The magnitude of a decimal literal: at least one digit. -/
def parseMagnitude : Token → Option Nat
  | [] => none
  | c :: cs => parseDigits 0 (c :: cs)

/-- A decimal literal, optionally with a leading minus (R80); "-0" is refused (U6), and so is a leading plus (U5). -/
def parseLiteral : Token → Option Int
  | '-' :: ds =>
    match parseMagnitude ds with
    | some (m + 1) => some (-((m + 1 : Nat) : Int))
    | some 0 => none
    | none => none
  | ds =>
    match parseMagnitude ds with
    | some m => some (m : Int)
    | none => none

/-- The mnemonics of three-register lines (R83, format R3). -/
def mnemonic3 : Token → Option (RegIdx → RegIdx → RegIdx → Instr)
  | ['A', 'D', 'D'] => some .add
  | ['S', 'U', 'B'] => some .sub
  | ['A', 'N', 'D'] => some .and
  | ['O', 'R'] => some .or
  | ['X', 'O', 'R'] => some .xor
  | _ => none

/-- The mnemonics of two-register lines (R83, formats R2 and RS). -/
def mnemonic2 : Token → Option (RegIdx → RegIdx → Instr)
  | ['N', 'O', 'T'] => some .not
  | ['S', 'H', 'L'] => some .shl
  | ['S', 'H', 'R'] => some .shr
  | ['L', 'O', 'A', 'D'] => some .load
  | ['C', 'M', 'P'] => some .cmp
  | ['S', 'T', 'O', 'R', 'E'] => some .store
  | _ => none

/-- The mnemonics of lines with one number (R83, formats J and I). -/
def mnemonic1 : Token → Option (Int → Instr)
  | ['J', 'U', 'M', 'P'] => some .jump
  | ['J', 'Z'] => some .jz
  | ['J', 'N', 'Z'] => some .jnz
  | ['L', 'O', 'A', 'D', 'I'] => some .loadi
  | _ => none

/-- The mnemonic of lines with no operand (R82, decision D9). -/
def mnemonic0 : Token → Option Instr
  | ['N', 'O', 'P'] => some .nop
  | _ => none

/-- The instruction a line's tokens name (R82, R83). -/
def parseTokens : List Token → Option Instr
  | [m] => mnemonic0 m
  | [m, a] =>
    match mnemonic1 m, parseLiteral a with
    | some f, some n => some (f n)
    | _, _ => none
  | [m, a, b] =>
    match mnemonic2 m, parseReg a, parseReg b with
    | some f, some ra, some rb => some (f ra rb)
    | _, _, _ => none
  | [m, a, b, c] =>
    match mnemonic3 m, parseReg a, parseReg b, parseReg c with
    | some f, some ra, some rb, some rc => some (f ra rb rc)
    | _, _, _, _ => none
  | _ => none

/-- The range check of R84, then the canonical word. -/
def assembleInstr (i : Instr) : Option Word := if wellFormed i then some (encode i) else none

/-- One line to one word, or the failure of that line. -/
def assembleLine (l : Line) : Option Word :=
  match tokenize l with
  | some ts =>
    match parseTokens ts with
    | some i => assembleInstr i
    | none => none
  | none => none

/-- The whole program; one bad line "aborts the whole assembly" (R177).  Line `i` is the word at address `i` (R80). -/
def assemble : List Line → Option (List Word)
  | [] => some []
  | l :: ls =>
    match assembleLine l, assemble ls with
    | some w, some ws => some (w :: ws)
    | _, _ => none

end Sys2Proof.Machine
end

