-- ==== Sys2Proof/Machine/HostOps.lean ====
section
/-! DEFINITION. The host's operations Reset, Load and Step as transitions of the state
(70_reset_and_hazards.md rules R189 to R191). -/

namespace Sys2Proof.Machine

/-- `INIT` (R5, 92_eei_decisions.md "Open parameters"): what the spec leaves open after Reset.  It is an argument
of Reset, so a statement for every `INIT` assumes none of its values. -/
structure Init where
  /-- `INIT.x` -/
  x : Vector Word 8
  /-- `INIT.F` -/
  f : Flags
  /-- `INIT.IR` -/
  ir : Word
  /-- `INIT.DS` -/
  ds : Addr
  /-- `INIT.MEM`, cell 0 first -/
  mem : Vector Word 256
  deriving DecidableEq, Repr

/-- The `INIT` that `State.reset` takes: every value 0 (DESIGN CHOICE, unsafe, log entries 2 and 3). -/
def initOfReset : Init where
  x := Vector.replicate 8 0#16
  f := ⟨false, false, false, false⟩
  ir := 0#16
  ds := 0#8
  mem := Vector.replicate 256 0#16

/-- Reset (R190): `PC` is 0, every other piece of state has the value `INIT` gives it, and no program is loaded. -/
def State.resetWith (i : Init) : State where
  x := i.x
  f := i.f
  pc := 0#8
  ir := i.ir
  ds := i.ds
  mem := Memory.writeImage [] 0 i.mem.toList
  loaded := false

/-- Load of an already assembled image (R191, decision D17): raw writes from address 0, `DS`, `PC`, then the
first Fetch.  Registers, flags and the other cells keep their values (R52). -/
def loadImage (ws : List Word) (s : State) : Result :=
  if ws.length ≤ Config.maxProg then
    .next (State.fetch { s with
      mem := s.mem.writeImage 0 ws, ds := BitVec.ofNat 8 ws.length, pc := 0#8, loaded := true })
  else .refused .programTooLong

/-- Load of program text (R191): assemble, then install; on a failure nothing is written (R177). -/
def load (lines : List Line) (s : State) : Result :=
  match assemble lines with
  | some ws => loadImage ws s
  | none => .fault .assemblyFailure

/-- The host's only ways to change the state (R189, R195). -/
inductive HostOp where
  /-- constructing "a fresh Computer" (R190) -/
  | reset (i : Init)
  /-- `load(programText)` (R191) -/
  | load (lines : List Line)
  /-- Load of a word image (R191, decision D17) -/
  | loadImage (ws : List Word)
  /-- `step()` (R101) -/
  | step
  deriving DecidableEq, Repr

/-- What an operation answers to the host. -/
def HostOp.answer (op : HostOp) (s : State) : Result :=
  match op with
  | .reset i => .next (State.resetWith i)
  | .load lines => Sys2Proof.Machine.load lines s
  | .loadImage ws => Sys2Proof.Machine.loadImage ws s
  | .step => Sys2Proof.Machine.step s

/-- The state an operation leaves: on an error or a refusal, the state before it (R107, R177). -/
def HostOp.apply (op : HostOp) (s : State) : State := stateAfter s (HostOp.answer op s)

/-- The state after a list of operations, issued one at a time (R196). -/
def hostRun : List HostOp → State → State
  | [], s => s
  | op :: ops, s => hostRun ops (HostOp.apply op s)

end Sys2Proof.Machine
end

