-- ==== Sys2Proof/Machine/Views.lean ====
section
/-! DEFINITION. What the host's observers return besides the plain fields (10_state.md rules R22, R27;
70_reset_and_hazards.md rule R195).  No instruction depends on a view. -/

namespace Sys2Proof.Machine

/-- A flag by its index: `ovf`, `carry`, `zero`, `sign` (R22). -/
def State.flagAt (s : State) : Fin 4 → Bool
  | 0 => s.f.ovf
  | 1 => s.f.carry
  | 2 => s.f.zero
  | 3 => s.f.sign

/-- "the full memory array" (R195), cell 0 first. -/
def State.memArray (s : State) : List Word :=
  (List.range Config.memSize).map fun a => s.mem.read (BitVec.ofNat 8 a)

/-- "Display order is sign, zero, carry, ovf" (R22). -/
def flagDisplayOrder : List (Fin 4) := [3, 2, 1, 0]

/-- `binaryValue` (R27): one character a bit, most significant first, at the register's width. -/
def binaryView {n : Nat} (p : BitVec n) : List Char :=
  (List.range n).reverse.map fun k => if p.getLsbD k then '1' else '0'

/-- One hex digit; the case of the letters is not stated (U9): a free value (log entry 14). -/
def hexDigit (d : Nat) : Char :=
  if d < 10 then Char.ofNat (48 + d) else Char.ofNat ((if Config.hexUpperCase then 55 else 87) + d)

/-- `hexValue` of a 16-bit pattern (R27): four digits, zero-padded. -/
def hexView (p : Word) : List Char :=
  [3, 2, 1, 0].map fun k => hexDigit ((p.extractLsb' (4 * k) 4).toNat)

/-- `decValue` of a 16-bit pattern (R27): the "signed decimal string" of `sval(p)` (decision D18). -/
def decView (p : Word) : List Char :=
  if sval p < 0 then '-' :: Nat.toDigits 10 (sval p).natAbs else Nat.toDigits 10 (sval p).natAbs

end Sys2Proof.Machine
end

