-- ==== Sys2Proof/Safety.lean ====
section
/-! DEFINITION. The terms claims are stated in: the machine's invariant, what "unchanged" means, and how a run
ends (70_reset_and_hazards.md rule R194). -/

namespace Sys2Proof.Machine

/-- What holds in every state the host can reach: the memory is in its canonical form, and once a program is
loaded `PC <= DS` (R19) and `IR = MEM[PC]` (R51). -/
def State.Inv (s : State) : Prop :=
  s.mem.wf = true ∧ (s.loaded = true → s.pc.toNat ≤ s.ds.toNat ∧ s.ir = s.mem.read s.pc)

/-- Every general register reads as before. -/
def SameRegs (s t : State) : Prop := ∀ r : RegIdx, t.reg r = s.reg r

/-- Every general register but `rd` reads as before. -/
def SameRegsBut (rd : RegIdx) (s t : State) : Prop := ∀ r : RegIdx, r ≠ rd → t.reg r = s.reg r

/-- Every memory cell reads as before. -/
def SameMem (s t : State) : Prop := ∀ a : Addr, t.mem.read a = s.mem.read a

/-- Every memory cell but `a` reads as before. -/
def SameMemBut (a : Addr) (s t : State) : Prop := ∀ b : Addr, b ≠ a → t.mem.read b = s.mem.read b

/-- `IR`, `DS` and the model's `loaded` are as before: Execute writes none of them (R20, R21). -/
def SameControl (s t : State) : Prop := t.ir = s.ir ∧ t.ds = s.ds ∧ t.loaded = s.loaded

/-- `PC` is one more than before (R18), where `PC` is not at the top of the address space, which it is in no
Step (R19). -/
def PcPlusOne (s t : State) : Prop := s.pc.toNat < 255 → t.pc.toNat = s.pc.toNat + 1

/-- The result row of ADD, SUB and CMP for the exact result `r` (R123, R124): the pattern `p` and the flags `f`.
The three clauses exclude each other. -/
def ArithTable (r : Int) (p : Word) (f : Flags) : Prop :=
  (32767 < r → p = 0x7FFF#16 ∧ f = ⟨true, true, false, false⟩) ∧
  (r < 0 → p = 0x8000#16 ∧ f = ⟨true, true, false, true⟩) ∧
  (0 ≤ r → r ≤ 32767 → (p.toNat : Int) = r ∧ f.ovf = false ∧ f.carry = false ∧ (f.zero = true ↔ r = 0) ∧
    f.sign = false)

/-- `zero` and `sign` are those of the pattern `p` (R130). -/
def BitTable (p : Word) (f : Flags) : Prop := (f.zero = true ↔ p = 0#16) ∧ f.sign = p.getLsbD 15

/-- `ovf` and `carry` are as before (R132). -/
def SameOvfCarry (s t : State) : Prop := t.f.ovf = s.f.ovf ∧ t.f.carry = s.f.carry

/-- The number `v` is an address of the data segment `[DS, MEM_SIZE)` (R42). -/
def InData (s : State) (v : Int) : Prop := (s.ds.toNat : Int) ≤ v ∧ v < 256

/-- The number `v` is an address of the code segment `[0, DS)` (R42). -/
def InCode (s : State) (v : Int) : Prop := 0 ≤ v ∧ v < (s.ds.toNat : Int)

/-- The bits the decoder reads of a word, by its opcode: those not marked unused (R63 to R68, R74). -/
def usedBits (w : Word) : Word :=
  if w.toNat / 4096 ≤ 4 then 0xFFF8#16
  else if w.toNat / 4096 ≤ 8 then 0xFFC0#16
  else if w.toNat / 4096 ≤ 10 then 0xF1F8#16
  else if w.toNat / 4096 ≤ 13 then 0xF0FF#16
  else if w.toNat / 4096 = 14 then 0xFFFF#16
  else 0xF000#16

/-- The name of a register (R10). -/
def regName (r : RegIdx) : List Char := [Char.ofNat (65 + r.val), 'x']

/-- A number as an optionally signed decimal literal (R80). -/
def decimal (n : Int) : List Char :=
  if n < 0 then '-' :: Nat.toDigits 10 n.natAbs else Nat.toDigits 10 n.natAbs

/-- The assembly syntax of each instruction (R83), one space between tokens. -/
def asmText : Instr → List Char
  | .add rd rs1 rs2 => ['A', 'D', 'D', ' '] ++ regName rd ++ [' '] ++ regName rs1 ++ [' '] ++ regName rs2
  | .sub rd rs1 rs2 => ['S', 'U', 'B', ' '] ++ regName rd ++ [' '] ++ regName rs1 ++ [' '] ++ regName rs2
  | .and rd rs1 rs2 => ['A', 'N', 'D', ' '] ++ regName rd ++ [' '] ++ regName rs1 ++ [' '] ++ regName rs2
  | .or rd rs1 rs2 => ['O', 'R', ' '] ++ regName rd ++ [' '] ++ regName rs1 ++ [' '] ++ regName rs2
  | .xor rd rs1 rs2 => ['X', 'O', 'R', ' '] ++ regName rd ++ [' '] ++ regName rs1 ++ [' '] ++ regName rs2
  | .not rd rs1 => ['N', 'O', 'T', ' '] ++ regName rd ++ [' '] ++ regName rs1
  | .shl rd rs1 => ['S', 'H', 'L', ' '] ++ regName rd ++ [' '] ++ regName rs1
  | .shr rd rs1 => ['S', 'H', 'R', ' '] ++ regName rd ++ [' '] ++ regName rs1
  | .load rd rs1 => ['L', 'O', 'A', 'D', ' '] ++ regName rd ++ [' '] ++ regName rs1
  | .cmp rs1 rs2 => ['C', 'M', 'P', ' '] ++ regName rs1 ++ [' '] ++ regName rs2
  | .store rs1 rs2 => ['S', 'T', 'O', 'R', 'E', ' '] ++ regName rs1 ++ [' '] ++ regName rs2
  | .jump n => ['J', 'U', 'M', 'P', ' '] ++ decimal n
  | .jz n => ['J', 'Z', ' '] ++ decimal n
  | .jnz n => ['J', 'N', 'Z', ' '] ++ decimal n
  | .loadi n => ['L', 'O', 'A', 'D', 'I', ' '] ++ decimal n
  | .nop => ['N', 'O', 'P']

/-- The contract allows a Step (R190, R193). -/
def State.mayStep (s : State) : Prop := s.loaded = true ∧ s.pc.toNat < s.ds.toNat

/-- `k` Steps from `s`, stopping at the first error or refusal (R194). -/
def runSteps : Nat → State → Result
  | 0, s => .next s
  | k + 1, s =>
    match step s with
    | .next t => runSteps k t
    | .fault r => .fault r
    | .refused r => .refused r

/-- The run from `s` is completed after `k` Steps, in `t` (R194 (a)). -/
def CompletesIn (k : Nat) (s t : State) : Prop := runSteps k s = .next t ∧ t.done = true

/-- The run from `s` fails with cause `c` at the Step after the first `k`, whose end state is `t` (R194 (b)). -/
def FailsAfter (k : Nat) (s t : State) (c : Cause) : Prop :=
  runSteps k s = .next t ∧ step t = .fault (.segmentViolation c)

/-- The run from `s` does not end (R194 (c)). -/
def RunsForever (s : State) : Prop := ∀ k : Nat, ∃ t : State, runSteps k s = .next t ∧ t.done = false

end Sys2Proof.Machine
end

