-- ==== Sys2Proof/Certificates/Slice0/Obligations.lean ====
section
/-! DEFINITION. The statements for the provers.  Each docstring names the rule of spec/ it formalises, or the
sections it rests on and any decision or log entry among them. -/

open Sys2Proof Sys2Proof.Machine

/-! ## Encoding -/

/-- Words the spec writes out (95_test_vectors.md §2.1) decode to the instructions it gives for them, unused
bits included. -/
def Obligations.WordsOfTheSpecDecode : Prop :=
  decode 0x0050#16 = .add 0 1 2 ∧ decode 0x1250#16 = .sub 1 1 2 ∧ decode 0x2648#16 = .and 3 1 1 ∧
  decode 0x46D8#16 = .xor 3 3 3 ∧ decode 0x6200#16 = .shl 1 0 ∧ decode 0x8440#16 = .load 2 1 ∧
  decode 0x9008#16 = .cmp 0 1 ∧ decode 0xA040#16 = .store 1 0 ∧ decode 0xB0FD#16 = .jump (-3) ∧
  decode 0xD080#16 = .jnz (-128) ∧ decode 0xE800#16 = .loadi (-2048) ∧ decode 0xF000#16 = .nop ∧
  decode 0x0057#16 = .add 0 1 2 ∧ decode 0x9E08#16 = .cmp 0 1 ∧ decode 0xBF01#16 = .jump 1

/-- R69: the canonical word of each of the 16 instructions, in the table's own arithmetic. -/
def Obligations.CanonicalWordOfEveryInstruction : Prop :=
  ∀ i : Instr, wellFormed i = true → (encode i).toNat =
    match i with
    | .add rd rs1 rs2 => 0x0000 + rd.val * 512 + rs1.val * 64 + rs2.val * 8
    | .sub rd rs1 rs2 => 0x1000 + rd.val * 512 + rs1.val * 64 + rs2.val * 8
    | .and rd rs1 rs2 => 0x2000 + rd.val * 512 + rs1.val * 64 + rs2.val * 8
    | .or rd rs1 rs2 => 0x3000 + rd.val * 512 + rs1.val * 64 + rs2.val * 8
    | .xor rd rs1 rs2 => 0x4000 + rd.val * 512 + rs1.val * 64 + rs2.val * 8
    | .not rd rs1 => 0x5000 + rd.val * 512 + rs1.val * 64
    | .shl rd rs1 => 0x6000 + rd.val * 512 + rs1.val * 64
    | .shr rd rs1 => 0x7000 + rd.val * 512 + rs1.val * 64
    | .load rd rs1 => 0x8000 + rd.val * 512 + rs1.val * 64
    | .cmp rs1 rs2 => 0x9000 + rs1.val * 64 + rs2.val * 8
    | .store rs1 rs2 => 0xA000 + rs1.val * 64 + rs2.val * 8
    | .jump n => 0xB000 + (n % 256).toNat
    | .jz n => 0xC000 + (n % 256).toNat
    | .jnz n => 0xD000 + (n % 256).toNat
    | .loadi n => 0xE000 + (n % 4096).toNat
    | .nop => 0xF000

/-- R75: what every one of the 65536 words decodes to, its fields cut out by integer arithmetic. -/
def Obligations.DecodeOfEveryWord : Prop :=
  ∀ w : Word,
    let v := w.toNat
    let rd : RegIdx := Fin.ofNat 8 (v / 512)
    let rs1 : RegIdx := Fin.ofNat 8 (v / 64)
    let rs2 : RegIdx := Fin.ofNat 8 (v / 8)
    let imm8 : Int := if v % 256 < 128 then (v % 256 : Nat) else (v % 256 : Nat) - 256
    let imm12 : Int := if v % 4096 < 2048 then (v % 4096 : Nat) else (v % 4096 : Nat) - 4096
    decode w =
      match v / 4096 with
      | 0 => .add rd rs1 rs2
      | 1 => .sub rd rs1 rs2
      | 2 => .and rd rs1 rs2
      | 3 => .or rd rs1 rs2
      | 4 => .xor rd rs1 rs2
      | 5 => .not rd rs1
      | 6 => .shl rd rs1
      | 7 => .shr rd rs1
      | 8 => .load rd rs1
      | 9 => .cmp rs1 rs2
      | 10 => .store rs1 rs2
      | 11 => .jump imm8
      | 12 => .jz imm8
      | 13 => .jnz imm8
      | 14 => .loadi imm12
      | _ => .nop

/-- 30_encoding.md §4 (unused bits and illegal encodings, the spec's inference and decision D10): every word
decodes to a well-formed instruction, and two words are the same instruction exactly when they agree on the bits
that are not unused. -/
def Obligations.UnusedBitsAreIgnored : Prop :=
  (∀ w : Word, wellFormed (decode w) = true) ∧
  ∀ w v : Word, decode w = decode v ↔ w &&& usedBits w = v &&& usedBits v

/-- Decoding an encoded well-formed instruction gives it back, every operand at every value its field admits
(30_encoding.md §2, §4; the round trip of §5 for immediates). -/
def Obligations.DecodeOfEncodeIsIdentity : Prop :=
  ∀ i : Instr, wellFormed i = true → decode (encode i) = i

/-! ## Assembler -/

/-- 30_encoding.md §5: the syntax of every well-formed instruction assembles to its canonical word, and nothing
assembles to any word that is not the canonical word of a well-formed instruction.  The names `Bx` to `Gx` are the
spec's inference (N7, log entry 15), NOP's word its decision D9. -/
def Obligations.AssemblerAcceptsEverySyntax : Prop :=
  (∀ i : Instr, wellFormed i = true → assembleLine (asmText i) = some (encode i)) ∧
  ∀ (l : Line) (w : Word), assembleLine l = some w → ∃ i : Instr, wellFormed i = true ∧ w = encode i

/-- 30_encoding.md §5, signed-immediate encoding: a literal assembles exactly when it lies in the field's signed
range, and then to `pat_8(n)` or `pat_12(n)` under the opcode. -/
def Obligations.LiteralsOutOfRangeDoNotAssemble : Prop :=
  ∀ (tok : Token) (n : Int), parseLiteral tok = some n →
    (parseTokens [['J', 'U', 'M', 'P'], tok]).bind assembleInstr =
      (if -128 ≤ n ∧ n ≤ 127 then some (BitVec.ofNat 16 (0xB000 + (n % 256).toNat)) else none) ∧
    (parseTokens [['J', 'Z'], tok]).bind assembleInstr =
      (if -128 ≤ n ∧ n ≤ 127 then some (BitVec.ofNat 16 (0xC000 + (n % 256).toNat)) else none) ∧
    (parseTokens [['J', 'N', 'Z'], tok]).bind assembleInstr =
      (if -128 ≤ n ∧ n ≤ 127 then some (BitVec.ofNat 16 (0xD000 + (n % 256).toNat)) else none) ∧
    (parseTokens [['L', 'O', 'A', 'D', 'I'], tok]).bind assembleInstr =
      (if -2048 ≤ n ∧ n ≤ 2047 then some (BitVec.ofNat 16 (0xE000 + (n % 4096).toNat)) else none)

/-! ## Arithmetic: ADD, SUB, CMP -/

/-- R120: ADD, with its result and flags by the exact sum, its frame and its encoding. -/
def Obligations.AddWritesClampedSum : Prop :=
  ∀ (rd rs1 rs2 : RegIdx) (s : State),
    decode (BitVec.ofNat 16 (0x0000 + rd.val * 512 + rs1.val * 64 + rs2.val * 8)) = .add rd rs1 rs2 ∧
    ∃ t : State, exec (.add rd rs1 rs2) s = .next t ∧
      ArithTable ((s.reg rs1).toInt + (s.reg rs2).toInt) (t.reg rd) t.f ∧
      SameRegsBut rd s t ∧ SameMem s t ∧ SameControl s t ∧ PcPlusOne s t

/-- R121: SUB, with its result and flags by the exact difference, its frame and its encoding. -/
def Obligations.SubWritesClampedDifference : Prop :=
  ∀ (rd rs1 rs2 : RegIdx) (s : State),
    decode (BitVec.ofNat 16 (0x1000 + rd.val * 512 + rs1.val * 64 + rs2.val * 8)) = .sub rd rs1 rs2 ∧
    ∃ t : State, exec (.sub rd rs1 rs2) s = .next t ∧
      ArithTable ((s.reg rs1).toInt - (s.reg rs2).toInt) (t.reg rd) t.f ∧
      SameRegsBut rd s t ∧ SameMem s t ∧ SameControl s t ∧ PcPlusOne s t

/-- R122: CMP sets the flags of the difference and writes no register; what the flags say of the two values. -/
def Obligations.CmpSetsFlagsOfDifference : Prop :=
  ∀ (rs1 rs2 : RegIdx) (s : State),
    decode (BitVec.ofNat 16 (0x9000 + rs1.val * 64 + rs2.val * 8)) = .cmp rs1 rs2 ∧
    ∃ t : State, exec (.cmp rs1 rs2) s = .next t ∧
      (∃ p : Word, ArithTable ((s.reg rs1).toInt - (s.reg rs2).toInt) p t.f) ∧
      (t.f.zero = true ↔ (s.reg rs1).toInt = (s.reg rs2).toInt) ∧
      (t.f.sign = true ↔ (s.reg rs1).toInt < (s.reg rs2).toInt) ∧
      (t.f.ovf = true ∧ t.f.carry = true ∧ t.f.sign = false ↔ 32767 < (s.reg rs1).toInt - (s.reg rs2).toInt) ∧
      SameRegs s t ∧ SameMem s t ∧ SameControl s t ∧ PcPlusOne s t

/-- 41_arithmetic.md §1 (the table of the arithmetic laws, an inference of the spec, over decision D2): the number
read back from what a checked write of any integer stores. -/
def Obligations.CheckedWriteReadsBackClamped : Prop :=
  ∀ v : Int, (checked v).toInt = if 32767 < v then 32767 else if v < 0 then -32768 else v

/-! ## Logic and shifts -/

/-- R131: AND, bitwise and raw; `zero` and `sign` of the result; `ovf` and `carry` cleared. -/
def Obligations.AndWritesConjunctionAndClearsOvfCarry : Prop :=
  ∀ (rd rs1 rs2 : RegIdx) (s : State),
    decode (BitVec.ofNat 16 (0x2000 + rd.val * 512 + rs1.val * 64 + rs2.val * 8)) = .and rd rs1 rs2 ∧
    ∃ t : State, exec (.and rd rs1 rs2) s = .next t ∧
      t.reg rd = s.reg rs1 &&& s.reg rs2 ∧ BitTable (t.reg rd) t.f ∧ t.f.ovf = false ∧ t.f.carry = false ∧
      SameRegsBut rd s t ∧ SameMem s t ∧ SameControl s t ∧ PcPlusOne s t

/-- R132: OR, bitwise and raw; `zero` and `sign` of the result; `ovf` and `carry` kept. -/
def Obligations.OrWritesDisjunctionAndKeepsOvfCarry : Prop :=
  ∀ (rd rs1 rs2 : RegIdx) (s : State),
    decode (BitVec.ofNat 16 (0x3000 + rd.val * 512 + rs1.val * 64 + rs2.val * 8)) = .or rd rs1 rs2 ∧
    ∃ t : State, exec (.or rd rs1 rs2) s = .next t ∧
      t.reg rd = s.reg rs1 ||| s.reg rs2 ∧ BitTable (t.reg rd) t.f ∧ SameOvfCarry s t ∧
      SameRegsBut rd s t ∧ SameMem s t ∧ SameControl s t ∧ PcPlusOne s t

/-- R133: XOR, bitwise and raw; `zero` and `sign` of the result; `ovf` and `carry` kept. -/
def Obligations.XorWritesDifferenceBitsAndKeepsOvfCarry : Prop :=
  ∀ (rd rs1 rs2 : RegIdx) (s : State),
    decode (BitVec.ofNat 16 (0x4000 + rd.val * 512 + rs1.val * 64 + rs2.val * 8)) = .xor rd rs1 rs2 ∧
    ∃ t : State, exec (.xor rd rs1 rs2) s = .next t ∧
      t.reg rd = s.reg rs1 ^^^ s.reg rs2 ∧ BitTable (t.reg rd) t.f ∧ SameOvfCarry s t ∧
      SameRegsBut rd s t ∧ SameMem s t ∧ SameControl s t ∧ PcPlusOne s t

/-- R134: NOT, the bitwise complement, raw; `zero` and `sign` of the result; `ovf` and `carry` kept. -/
def Obligations.NotWritesComplementAndKeepsOvfCarry : Prop :=
  ∀ (rd rs1 : RegIdx) (s : State),
    decode (BitVec.ofNat 16 (0x5000 + rd.val * 512 + rs1.val * 64)) = .not rd rs1 ∧
    ∃ t : State, exec (.not rd rs1) s = .next t ∧
      t.reg rd = ~~~ s.reg rs1 ∧ BitTable (t.reg rd) t.f ∧ SameOvfCarry s t ∧
      SameRegsBut rd s t ∧ SameMem s t ∧ SameControl s t ∧ PcPlusOne s t

/-- SHL as 42_logic_shift.md §2 gives it.  The whole statement rests on the spec's own decision D8 (log entry 7),
not on its source. -/
def Obligations.ShlShiftsLeftOnePlace : Prop :=
  ∀ (rd rs1 : RegIdx) (s : State),
    decode (BitVec.ofNat 16 (0x6000 + rd.val * 512 + rs1.val * 64)) = .shl rd rs1 ∧
    ∃ t : State, exec (.shl rd rs1) s = .next t ∧
      (t.reg rd).toNat = (s.reg rs1).toNat * 2 % 65536 ∧ BitTable (t.reg rd) t.f ∧ SameOvfCarry s t ∧
      SameRegsBut rd s t ∧ SameMem s t ∧ SameControl s t ∧ PcPlusOne s t

/-- SHR as 42_logic_shift.md §2 gives it: logical.  The whole statement rests on the spec's own decision D8
(log entry 7), not on its source. -/
def Obligations.ShrShiftsRightOnePlace : Prop :=
  ∀ (rd rs1 : RegIdx) (s : State),
    decode (BitVec.ofNat 16 (0x7000 + rd.val * 512 + rs1.val * 64)) = .shr rd rs1 ∧
    ∃ t : State, exec (.shr rd rs1) s = .next t ∧
      (t.reg rd).toNat = (s.reg rs1).toNat / 2 ∧ BitTable (t.reg rd) t.f ∧ t.f.sign = false ∧ SameOvfCarry s t ∧
      SameRegsBut rd s t ∧ SameMem s t ∧ SameControl s t ∧ PcPlusOne s t

/-! ## Memory: LOAD, STORE -/

/-- R141: LOAD from every address of the data segment, its checked write, no flag; and the violation at every
other number. -/
def Obligations.LoadReadsDataSegmentChecked : Prop :=
  ∀ (rd rs1 : RegIdx) (s : State),
    decode (BitVec.ofNat 16 (0x8000 + rd.val * 512 + rs1.val * 64)) = .load rd rs1 ∧
    (∀ a : Addr, (s.reg rs1).toInt = (a.toNat : Int) → InData s (s.reg rs1).toInt →
      ∃ t : State, exec (.load rd rs1) s = .next t ∧
        t.reg rd = (if (s.mem.read a).toInt < 0 then 0x8000#16 else s.mem.read a) ∧ t.f = s.f ∧
        SameRegsBut rd s t ∧ SameMem s t ∧ SameControl s t ∧ PcPlusOne s t) ∧
    (¬ InData s (s.reg rs1).toInt → exec (.load rd rs1) s = .fault (.segmentViolation .loadAddress))

/-- R142: STORE to every address of the data segment, raw, no flag and no register; and the violation at every
other number; a Fetch from the stored cell sees the new word.  That the cell reads back needs the memory's canonical form, which `StepKeepsInvariant` states. -/
def Obligations.StoreWritesDataSegmentRaw : Prop :=
  ∀ (rs1 rs2 : RegIdx) (s : State),
    decode (BitVec.ofNat 16 (0xA000 + rs1.val * 64 + rs2.val * 8)) = .store rs1 rs2 ∧
    (∀ a : Addr, (s.reg rs1).toInt = (a.toNat : Int) → InData s (s.reg rs1).toInt →
      ∃ t : State, exec (.store rs1 rs2) s = .next t ∧
        (s.mem.wf = true → t.mem.read a = s.reg rs2 ∧ (t.pc = a → t.fetch.ir = s.reg rs2)) ∧
        SameMemBut a s t ∧ t.f = s.f ∧
        SameRegs s t ∧ SameControl s t ∧ PcPlusOne s t) ∧
    (¬ InData s (s.reg rs1).toInt → exec (.store rs1 rs2) s = .fault (.segmentViolation .storeAddress))

/-- 43_load_store.md §2, the corner case of LOAD: a value stored and loaded back is copied if it is not negative,
and is `0x8000` if it is. -/
def Obligations.StoreThenLoadClampsNegatives : Prop :=
  ∀ (ra rv rd : RegIdx) (s : State), s.mem.wf = true → InData s (s.reg ra).toInt →
    ∃ t u : State, exec (.store ra rv) s = .next t ∧ exec (.load rd ra) t = .next u ∧
      u.reg rd = (if (s.reg rv).toInt < 0 then 0x8000#16 else s.reg rv)

/-! ## Control transfer -/

/-- R151: JUMP to every target in the code segment, exactly there; and the violation at every other target. -/
def Obligations.JumpGoesToTestedTarget : Prop :=
  ∀ (n : Int) (s : State),
    (-128 ≤ n → n ≤ 127 → decode (BitVec.ofNat 16 (0xB000 + (n % 256).toNat)) = .jump n) ∧
    (InCode s ((s.pc.toNat : Int) + n) →
      ∃ t : State, exec (.jump n) s = .next t ∧ (t.pc.toNat : Int) = (s.pc.toNat : Int) + n ∧ t.f = s.f ∧
        SameRegs s t ∧ SameMem s t ∧ SameControl s t) ∧
    (¬ InCode s ((s.pc.toNat : Int) + n) → exec (.jump n) s = .fault (.segmentViolation .jumpTarget))

/-- R152: JZ is JUMP when `zero` is 1, and otherwise only advances, whatever `n` is. -/
def Obligations.JzJumpsOnZero : Prop :=
  ∀ (n : Int) (s : State),
    (-128 ≤ n → n ≤ 127 → decode (BitVec.ofNat 16 (0xC000 + (n % 256).toNat)) = .jz n) ∧
    (s.f.zero = true → InCode s ((s.pc.toNat : Int) + n) →
      ∃ t : State, exec (.jz n) s = .next t ∧ (t.pc.toNat : Int) = (s.pc.toNat : Int) + n ∧ t.f = s.f ∧
        SameRegs s t ∧ SameMem s t ∧ SameControl s t) ∧
    (s.f.zero = true → ¬ InCode s ((s.pc.toNat : Int) + n) →
      exec (.jz n) s = .fault (.segmentViolation .jumpTarget)) ∧
    (s.f.zero = false →
      ∃ t : State, exec (.jz n) s = .next t ∧ PcPlusOne s t ∧ t.f = s.f ∧
        SameRegs s t ∧ SameMem s t ∧ SameControl s t)

/-- R153: JNZ is JUMP when `zero` is 0, and otherwise only advances, whatever `n` is. -/
def Obligations.JnzJumpsOnNonzero : Prop :=
  ∀ (n : Int) (s : State),
    (-128 ≤ n → n ≤ 127 → decode (BitVec.ofNat 16 (0xD000 + (n % 256).toNat)) = .jnz n) ∧
    (s.f.zero = false → InCode s ((s.pc.toNat : Int) + n) →
      ∃ t : State, exec (.jnz n) s = .next t ∧ (t.pc.toNat : Int) = (s.pc.toNat : Int) + n ∧ t.f = s.f ∧
        SameRegs s t ∧ SameMem s t ∧ SameControl s t) ∧
    (s.f.zero = false → ¬ InCode s ((s.pc.toNat : Int) + n) →
      exec (.jnz n) s = .fault (.segmentViolation .jumpTarget)) ∧
    (s.f.zero = true →
      ∃ t : State, exec (.jnz n) s = .next t ∧ PcPlusOne s t ∧ t.f = s.f ∧
        SameRegs s t ∧ SameMem s t ∧ SameControl s t)

/-- 70_reset_and_hazards.md §5 with 41_arithmetic.md §2: a JZ right after a CMP sees the new `zero`, so it branches
exactly when the two values are equal. -/
def Obligations.CompareThenBranchOnEqual : Prop :=
  ∀ (rs1 rs2 : RegIdx) (n : Int) (s : State), s.pc.toNat < 254 → InCode s ((s.pc.toNat : Int) + 1 + n) →
    ∃ t u : State, exec (.cmp rs1 rs2) s = .next t ∧ exec (.jz n) t = .next u ∧
      (u.pc.toNat : Int) = (s.pc.toNat : Int) + 1 + (if s.reg rs1 = s.reg rs2 then n else 1)

/-! ## LOADI, NOP -/

/-- LOADI as 45_misc.md gives it: `x[0]` gets the immediate itself, sign and all, and nothing else changes.  That the
write is raw is the spec's own inference, marked there as derived (log entry 8). -/
def Obligations.LoadiWritesImmediateToAx : Prop :=
  ∀ (n : Int) (s : State),
    (-2048 ≤ n → n ≤ 2047 → decode (BitVec.ofNat 16 (0xE000 + (n % 4096).toNat)) = .loadi n) ∧
    ∃ t : State, exec (.loadi n) s = .next t ∧
      ((t.reg 0).toNat : Int) = n % 65536 ∧ (-2048 ≤ n → n ≤ 2047 → (t.reg 0).toInt = n) ∧ t.f = s.f ∧
      SameRegsBut 0 s t ∧ SameMem s t ∧ SameControl s t ∧ PcPlusOne s t

/-- R161: NOP advances `PC` and does nothing else, whatever its twelve unused bits hold. -/
def Obligations.NopOnlyAdvances : Prop :=
  ∀ s : State,
    (∀ k : Nat, k < 4096 → decode (BitVec.ofNat 16 (0xF000 + k)) = .nop) ∧
    ∃ t : State, exec .nop s = .next t ∧ t.f = s.f ∧ SameRegs s t ∧ SameMem s t ∧ SameControl s t ∧ PcPlusOne s t

/-! ## Rules over all instructions -/

/-- 60_exceptions.md §2: the five instructions that raise a violation, each on its one condition and no other, and
no other fault.  The cause labels are the spec's decision D16. -/
def Obligations.ViolationExactlyOnFailedTest : Prop :=
  ∀ (i : Instr) (s : State) (e : Fault), exec i s = .fault e ↔
    (∃ rd rs1, i = .load rd rs1 ∧ ¬ InData s (s.reg rs1).toInt ∧ e = .segmentViolation .loadAddress) ∨
    (∃ rs1 rs2, i = .store rs1 rs2 ∧ ¬ InData s (s.reg rs1).toInt ∧ e = .segmentViolation .storeAddress) ∨
    (∃ n, (i = .jump n ∨ i = .jz n ∧ s.f.zero = true ∨ i = .jnz n ∧ s.f.zero = false) ∧
      ¬ InCode s ((s.pc.toNat : Int) + n) ∧ e = .segmentViolation .jumpTarget)

/-- 10_state.md §3 and 40_cycle.md §3: what every completing instruction does to `PC`: one more, or a tested jump
target.  The clause for `PC = 255`, which no Step reaches, is the model's choice of a free value (log entry 6). -/
def Obligations.PcAdvancesOrTakesTestedTarget : Prop :=
  ∀ (i : Instr) (s t : State), exec i s = .next t →
    (∃ n, (i = .jump n ∨ i = .jz n ∧ s.f.zero = true ∨ i = .jnz n ∧ s.f.zero = false) ∧
      InCode s ((s.pc.toNat : Int) + n) ∧ (t.pc.toNat : Int) = (s.pc.toNat : Int) + n) ∨
    ((∀ n, i ≠ .jump n ∧ (i = .jz n → s.f.zero = false) ∧ (i = .jnz n → s.f.zero = true)) ∧
      if s.pc.toNat = 255 then t.pc = Config.pcPastTop else t.pc.toNat = s.pc.toNat + 1)

/-- 10_state.md §5, the table of flag writers.  The rows of SHL and SHR are decision D8 (log entry 7). -/
def Obligations.FlagsWrittenOnlyAsTabled : Prop :=
  ∀ (i : Instr) (s t : State), exec i s = .next t →
    match i with
    | .add _ _ _ | .sub _ _ _ | .cmp _ _ => t.f.carry = t.f.ovf ∧ (t.f.sign = true → t.f.ovf = true)
    | .and _ _ _ => t.f.ovf = false ∧ t.f.carry = false
    | .or _ _ _ | .xor _ _ _ | .not _ _ | .shl _ _ | .shr _ _ => SameOvfCarry s t
    | .load _ _ | .store _ _ | .jump _ | .jz _ | .jnz _ | .loadi _ | .nop => t.f = s.f

/-- 10_state.md §5: no instruction reads `ovf`, `carry` or `sign`.  Two states that differ in these three alone run
alike in everything else. -/
def Obligations.OvfCarrySignAreNeverRead : Prop :=
  ∀ (i : Instr) (s s' : State), s' = { s with f := s'.f } → s'.f.zero = s.f.zero →
    (∀ e : Fault, exec i s = .fault e ↔ exec i s' = .fault e) ∧
    (∀ t : State, exec i s = .next t → ∃ t' : State, exec i s' = .next t' ∧
      t' = { t with f := t'.f } ∧ t'.f.zero = t.f.zero)

/-! ## The Step -/

/-- R101: in a state the contract allows a Step in, the Step is Execute of the instruction decoded from `IR`, then
the Fetch at the new `PC`; if Execute raises, the Step does and the host finds the state as it was.  Under the
invariant `IR` is the word in memory at `PC`. -/
def Obligations.StepRunsDecodedInstruction : Prop :=
  ∀ s : State, s.mayStep →
    (∀ t : State, exec (decode s.ir) s = .next t → step s = .next { t with ir := t.mem.read t.pc }) ∧
    (∀ k : Cause, exec (decode s.ir) s = .fault (.segmentViolation k) →
      step s = .fault (.segmentViolation k) ∧ HostOp.apply .step s = s) ∧
    (s.Inv → decode s.ir = decode (s.mem.read s.pc))

/-- 70_reset_and_hazards.md §2 and §4, decisions D7 and D11 (log entries 4, 5): where the model has no transition. -/
def Obligations.StepOutsideTheContractIsRefused : Prop :=
  ∀ s : State, (s.loaded = false → step s = .refused .stepBeforeLoad) ∧
    (s.loaded = true → s.ds.toNat ≤ s.pc.toNat → step s = .refused .programFinished)

/-- R106: a Step the contract allows has one of two outcomes, and no third. -/
def Obligations.StepIsOkOrViolation : Prop :=
  ∀ s : State, s.mayStep →
    (∃ t : State, step s = .next t) ∨ ∃ k : Cause, step s = .fault (.segmentViolation k)

/-- 60_exceptions.md §2 (an inference of the spec, decision D12): after a violation every further Step raises the
same one, from the same state. -/
def Obligations.ViolationRepeatsForever : Prop :=
  ∀ (s : State) (k : Cause) (n : Nat), step s = .fault (.segmentViolation k) →
    hostRun (List.replicate n .step) s = s ∧
    HostOp.answer .step (hostRun (List.replicate n .step) s) = .fault (.segmentViolation k)

/-- 20_memory.md §5 and 10_state.md §4: no Step changes `DS` or any word of the code segment. -/
def Obligations.StepKeepsDsAndCodeSegment : Prop :=
  ∀ s t : State, step s = .next t →
    t.ds = s.ds ∧ t.loaded = s.loaded ∧ ∀ a : Addr, a.toNat < s.ds.toNat → t.mem.read a = s.mem.read a

/-- 44_control.md §2: a program ends only by the sequential advance from address `DS - 1`. -/
def Obligations.RunEndsOnlyByFallingThrough : Prop :=
  ∀ s t : State, step s = .next t → t.done = true →
    s.pc.toNat + 1 = s.ds.toNat ∧ t.pc.toNat = s.pc.toNat + 1 ∧
    ∀ n, decode s.ir ≠ .jump n ∧ (decode s.ir = .jz n → s.f.zero = false) ∧
      (decode s.ir = .jnz n → s.f.zero = true)

/-- 70_reset_and_hazards.md §4: a run ends in exactly one of three ways: completed, failed, or not at all.  That the
model has no transition at Done is decision D11 (log entry 5). -/
def Obligations.RunEndsInExactlyOneWay : Prop :=
  ∀ s : State, s.Inv → s.loaded = true →
    ((∃ k t, CompletesIn k s t) ∨ (∃ k t c, FailsAfter k s t c) ∨ RunsForever s) ∧
    ¬ ((∃ k t, CompletesIn k s t) ∧ ∃ k t c, FailsAfter k s t c) ∧
    ¬ ((∃ k t, CompletesIn k s t) ∧ RunsForever s) ∧
    ¬ ((∃ k t c, FailsAfter k s t c) ∧ RunsForever s)

/-- The invariant of the machine, from every state that has it: the memory keeps its canonical form, `PC <= DS`
(10_state.md §3) and `IR = MEM[PC]` (20_memory.md §5). -/
def Obligations.StepKeepsInvariant : Prop :=
  ∀ s t : State, s.Inv → step s = .next t → t.Inv

/-! ## Reset, Load and the host -/

/-- 10_state.md §7 and 70_reset_and_hazards.md §2: what Reset leaves, for every `INIT`.  `PC` = 0 is the spec's
inference; `loaded` is the model's own field (log entry 4). -/
def Obligations.ResetLeavesPcZeroAndInit : Prop :=
  ∀ init : Init,
    let t := State.resetWith init
    t.pc = 0#8 ∧ t.loaded = false ∧ t.x = init.x ∧ t.f = init.f ∧ t.ir = init.ir ∧ t.ds = init.ds ∧
    ∀ a : Addr, t.mem.read a = init.mem[a.toNat]'a.isLt

/-- The invariant holds at `State.reset` and at the reset of every `INIT` (10_state.md §7). -/
def Obligations.ResetMeetsInvariant : Prop :=
  State.reset.Inv ∧ ∀ init : Init, (State.resetWith init).Inv

/-- 70_reset_and_hazards.md §3: what Load of an image of words leaves, and that a longer one is refused.  `PC` = 0 is
the spec's decision D6, the limit of 255 words its decision D5, the word image D17 (log entries 8, 11). -/
def Obligations.LoadInstallsProgram : Prop :=
  ∀ (ws : List Word) (s : State), s.mem.wf = true →
    (ws.length ≤ 255 → ∃ t : State, loadImage ws s = .next t ∧
      (∀ a : Addr, t.mem.read a = (ws[a.toNat]?).getD (s.mem.read a)) ∧
      t.ds.toNat = ws.length ∧ t.pc = 0#8 ∧ t.ir = t.mem.read 0#8 ∧ t.x = s.x ∧ t.f = s.f ∧ t.loaded = true) ∧
    (255 < ws.length → loadImage ws s = .refused .programTooLong ∧ HostOp.apply (.loadImage ws) s = s)

/-- R177: one line that does not assemble abandons the whole Load and nothing is written; a Load of lines that all
assemble is the Load of their words in order; the CPU never raises the failure. -/
def Obligations.FailedLoadChangesNothing : Prop :=
  (∀ (lines : List Line) (s : State), (∃ l ∈ lines, assembleLine l = none) →
    load lines s = .fault .assemblyFailure ∧ HostOp.apply (.load lines) s = s) ∧
  (∀ (lines : List Line) (ws : List Word) (s : State), lines.map assembleLine = ws.map some →
    load lines s = loadImage ws s) ∧
  (∀ (l : Line) (ts : List Token) (i : Instr), tokenize l = some ts → parseTokens ts = some i →
    wellFormed i = false → assembleLine l = none) ∧
  (∀ s : State, step s ≠ .fault .assemblyFailure)

/-- 70_reset_and_hazards.md §3: the first Step after a Load runs the program's word 0 from the loaded state. -/
def Obligations.FirstStepRunsWordZero : Prop :=
  ∀ (w : Word) (ws : List Word) (s : State), s.mem.wf = true → ws.length ≤ 254 →
    ∃ t : State, loadImage (w :: ws) s = .next t ∧ t.ir = w ∧ step t = fetchAfter (exec (decode w) t)

/-- The invariant holds after any list of host operations from any state that has it, so in every state the host
can reach: 70_reset_and_hazards.md §1, with 10_state.md §3 and 20_memory.md §5. -/
def Obligations.HostOperationsKeepInvariant : Prop :=
  ∀ (ops : List HostOp) (s : State), s.Inv → (hostRun ops s).Inv

/-- 20_memory.md §1: the canonical list is the memory of 256 cells and nothing else: every content of the cells is
some canonical list, and two canonical lists that read alike are equal (the model's form, log entry 1). -/
def Obligations.CanonicalMemoryIsTheCells : Prop :=
  (∀ g : Addr → Word, ∃ m : Memory, m.wf = true ∧ ∀ a : Addr, m.read a = g a) ∧
  ∀ m m' : Memory, m.wf = true → m'.wf = true → (∀ a : Addr, m.read a = m'.read a) → m = m'

/-- 10_state.md §6, the binary view: as many characters as the register has bits, and, read as a binary number with
the most significant digit first, the pattern's unsigned value. -/
def Obligations.BinaryViewSpellsThePattern : Prop :=
  ∀ (n : Nat) (p : BitVec n),
    (binaryView p).length = n ∧ (∀ c ∈ binaryView p, c = '0' ∨ c = '1') ∧
    (binaryView p).foldl (fun acc c => 2 * acc + (if c = '1' then 1 else 0)) 0 = p.toNat
end

