-- ==== Sys2Proof/Laws/Memory.lean ====
section
/-! SUPPORT. The laws of memory: read after write, and that every operation keeps the canonical form. -/

namespace Sys2Proof.Machine

theorem Memory.wfFrom_cons {lo a : Nat} {v : Word} {rest : Memory} :
    Memory.wfFrom lo ((a, v) :: rest) = true ↔
      lo ≤ a ∧ a < Config.memSize ∧ v ≠ Memory.unlisted ∧ Memory.wfFrom (a + 1) rest = true := by
  simp [Memory.wfFrom, and_assoc]

theorem Memory.wfFrom_mono {lo lo' : Nat} {m : Memory} (h : lo' ≤ lo) (hm : Memory.wfFrom lo m = true) :
    Memory.wfFrom lo' m = true := by
  cases m with
  | nil => rfl
  | cons c rest =>
    obtain ⟨h1, h2⟩ := Memory.wfFrom_cons.mp hm
    exact Memory.wfFrom_cons.mpr ⟨h.trans h1, h2⟩

/-- Below the first address of a canonical list nothing is listed. -/
theorem Memory.get_below {m : Memory} {lo a : Nat} (hm : Memory.wfFrom lo m = true) (h : a < lo) :
    Memory.get m a = Memory.unlisted := by
  induction m generalizing lo with
  | nil => rfl
  | cons c rest ih =>
    obtain ⟨h1, -, -, h4⟩ := Memory.wfFrom_cons.mp hm
    rw [Memory.get, if_neg (by omega)]
    exact ih h4 (by omega)

theorem Memory.get_put_same {m : Memory} {lo : Nat} (hm : Memory.wfFrom lo m = true) (a : Nat) (v : Word) :
    Memory.get (Memory.put m a v) a = v := by
  induction m generalizing lo with
  | nil => unfold Memory.put; split <;> simp_all [Memory.get]
  | cons c rest ih =>
    obtain ⟨b, u⟩ := c
    obtain ⟨-, -, -, h4⟩ := Memory.wfFrom_cons.mp hm
    unfold Memory.put
    split_ifs with h1 h2 h2 h3
    · rw [Memory.get, if_neg (by omega), Memory.get_below h4 (by omega), h2]
    · simp [Memory.get]
    · rw [Memory.get_below h4 (by omega), h3]
    · simp [Memory.get]
    · rw [Memory.get, if_neg h2]
      exact ih h4

theorem Memory.get_put_other (m : Memory) {a b : Nat} (h : b ≠ a) (v : Word) :
    Memory.get (Memory.put m a v) b = Memory.get m b := by
  induction m with
  | nil => unfold Memory.put; split <;> simp [Memory.get, h]
  | cons c rest ih =>
    obtain ⟨d, u⟩ := c
    unfold Memory.put
    split_ifs with h1 h2 h2 h3
    · rfl
    · rw [Memory.get, if_neg h]
    · rw [Memory.get, if_neg (by omega)]
    · rw [Memory.get, Memory.get, if_neg h, if_neg (by omega)]
    · rw [Memory.get, Memory.get, ih]

theorem Memory.wfFrom_put {m : Memory} {lo a : Nat} (hm : Memory.wfFrom lo m = true) (h1 : lo ≤ a)
    (h2 : a < Config.memSize) (v : Word) : Memory.wfFrom lo (Memory.put m a v) = true := by
  induction m generalizing lo with
  | nil =>
    unfold Memory.put
    split_ifs with h3
    · rfl
    · exact Memory.wfFrom_cons.mpr ⟨h1, h2, h3, rfl⟩
  | cons c rest ih =>
    obtain ⟨b, u⟩ := c
    obtain ⟨k1, k2, k3, k4⟩ := Memory.wfFrom_cons.mp hm
    unfold Memory.put
    split_ifs with h3 h4 h4 h5
    · exact hm
    · exact Memory.wfFrom_cons.mpr ⟨h1, h2, h4, Memory.wfFrom_cons.mpr ⟨h3, k2, k3, k4⟩⟩
    · exact Memory.wfFrom_mono (by omega) k4
    · exact Memory.wfFrom_cons.mpr ⟨h1, h2, h5, h4 ▸ k4⟩
    · exact Memory.wfFrom_cons.mpr ⟨k1, k2, k3, ih k4 (by omega)⟩

/-- A cell reads back what was written to it. -/
theorem Memory.read_write_same {m : Memory} (hm : m.wf = true) (a : Addr) (v : Word) :
    (m.write a v).read a = v := Memory.get_put_same hm a.toNat v

/-- Writing a cell leaves every other cell alone. -/
theorem Memory.read_write_other (m : Memory) {a b : Addr} (h : b ≠ a) (v : Word) :
    (m.write a v).read b = m.read b :=
  Memory.get_put_other m (fun e => h (BitVec.eq_of_toNat_eq e)) v

/-- A write keeps the canonical form. -/
theorem Memory.wf_write {m : Memory} (hm : m.wf = true) (a : Addr) (v : Word) : (m.write a v).wf = true :=
  Memory.wfFrom_put hm (Nat.zero_le _) a.isLt v

/-- Writing an image that fits keeps the canonical form. -/
theorem Memory.wf_writeImage (ws : List Word) {m : Memory} {a : Nat} (hm : m.wf = true)
    (h : a + ws.length ≤ Config.memSize) : (m.writeImage a ws).wf = true := by
  induction ws generalizing m a with
  | nil => exact hm
  | cons w ws ih =>
    simp only [List.length_cons] at h
    exact ih (Memory.wfFrom_put hm (Nat.zero_le _) (by omega) w) (by omega)

/-- Below its first address an image writes nothing. -/
theorem Memory.get_writeImage_below (ws : List Word) (m : Memory) {a b : Nat} (h : b < a) :
    Memory.get (m.writeImage a ws) b = Memory.get m b := by
  induction ws generalizing m a with
  | nil => rfl
  | cons w ws ih => rw [Memory.writeImage, ih _ (by omega), Memory.get_put_other _ (by omega)]

/-- The empty memory is in canonical form. -/
theorem Memory.wf_nil : Memory.wf [] = true := rfl

end Sys2Proof.Machine
end

