-- ==== Sys2Proof/Laws/State.lean ====
section
/-! SUPPORT. One lemma per field per update of State, and the laws of the register file. -/

namespace Sys2Proof.Machine

@[simp] theorem State.setReg_x (s : State) (r : RegIdx) (p : Word) : (s.setReg r p).x = s.x.set r.val p := rfl
@[simp] theorem State.setReg_f (s : State) (r : RegIdx) (p : Word) : (s.setReg r p).f = s.f := rfl
@[simp] theorem State.setReg_pc (s : State) (r : RegIdx) (p : Word) : (s.setReg r p).pc = s.pc := rfl
@[simp] theorem State.setReg_ir (s : State) (r : RegIdx) (p : Word) : (s.setReg r p).ir = s.ir := rfl
@[simp] theorem State.setReg_ds (s : State) (r : RegIdx) (p : Word) : (s.setReg r p).ds = s.ds := rfl
@[simp] theorem State.setReg_mem (s : State) (r : RegIdx) (p : Word) : (s.setReg r p).mem = s.mem := rfl
@[simp] theorem State.setReg_loaded (s : State) (r : RegIdx) (p : Word) : (s.setReg r p).loaded = s.loaded := rfl

@[simp] theorem State.setFlags_x (s : State) (f : Flags) : (s.setFlags f).x = s.x := rfl
@[simp] theorem State.setFlags_f (s : State) (f : Flags) : (s.setFlags f).f = f := rfl
@[simp] theorem State.setFlags_pc (s : State) (f : Flags) : (s.setFlags f).pc = s.pc := rfl
@[simp] theorem State.setFlags_ir (s : State) (f : Flags) : (s.setFlags f).ir = s.ir := rfl
@[simp] theorem State.setFlags_ds (s : State) (f : Flags) : (s.setFlags f).ds = s.ds := rfl
@[simp] theorem State.setFlags_mem (s : State) (f : Flags) : (s.setFlags f).mem = s.mem := rfl
@[simp] theorem State.setFlags_loaded (s : State) (f : Flags) : (s.setFlags f).loaded = s.loaded := rfl
@[simp] theorem State.setFlags_reg (s : State) (f : Flags) (r' : RegIdx) : (s.setFlags f).reg r' = s.reg r' := rfl
@[simp] theorem State.setFlags_sreg (s : State) (f : Flags) (r' : RegIdx) : (s.setFlags f).sreg r' = s.sreg r' := rfl

@[simp] theorem State.setPc_x (s : State) (a : Addr) : (s.setPc a).x = s.x := rfl
@[simp] theorem State.setPc_f (s : State) (a : Addr) : (s.setPc a).f = s.f := rfl
@[simp] theorem State.setPc_pc (s : State) (a : Addr) : (s.setPc a).pc = a := rfl
@[simp] theorem State.setPc_ir (s : State) (a : Addr) : (s.setPc a).ir = s.ir := rfl
@[simp] theorem State.setPc_ds (s : State) (a : Addr) : (s.setPc a).ds = s.ds := rfl
@[simp] theorem State.setPc_mem (s : State) (a : Addr) : (s.setPc a).mem = s.mem := rfl
@[simp] theorem State.setPc_loaded (s : State) (a : Addr) : (s.setPc a).loaded = s.loaded := rfl
@[simp] theorem State.setPc_reg (s : State) (a : Addr) (r' : RegIdx) : (s.setPc a).reg r' = s.reg r' := rfl
@[simp] theorem State.setPc_sreg (s : State) (a : Addr) (r' : RegIdx) : (s.setPc a).sreg r' = s.sreg r' := rfl

@[simp] theorem State.writeMem_x (s : State) (a : Addr) (v : Word) : (s.writeMem a v).x = s.x := rfl
@[simp] theorem State.writeMem_f (s : State) (a : Addr) (v : Word) : (s.writeMem a v).f = s.f := rfl
@[simp] theorem State.writeMem_pc (s : State) (a : Addr) (v : Word) : (s.writeMem a v).pc = s.pc := rfl
@[simp] theorem State.writeMem_ir (s : State) (a : Addr) (v : Word) : (s.writeMem a v).ir = s.ir := rfl
@[simp] theorem State.writeMem_ds (s : State) (a : Addr) (v : Word) : (s.writeMem a v).ds = s.ds := rfl
@[simp] theorem State.writeMem_mem (s : State) (a : Addr) (v : Word) : (s.writeMem a v).mem = s.mem.write a v := rfl
@[simp] theorem State.writeMem_loaded (s : State) (a : Addr) (v : Word) : (s.writeMem a v).loaded = s.loaded := rfl
@[simp] theorem State.writeMem_reg (s : State) (a : Addr) (v : Word) (r' : RegIdx) : (s.writeMem a v).reg r' = s.reg r' := rfl
@[simp] theorem State.writeMem_sreg (s : State) (a : Addr) (v : Word) (r' : RegIdx) : (s.writeMem a v).sreg r' = s.sreg r' := rfl

@[simp] theorem State.advance_x (s : State) : (s.advance).x = s.x := rfl
@[simp] theorem State.advance_f (s : State) : (s.advance).f = s.f := rfl
@[simp] theorem State.advance_pc (s : State) : (s.advance).pc = nextPc s.pc := rfl
@[simp] theorem State.advance_ir (s : State) : (s.advance).ir = s.ir := rfl
@[simp] theorem State.advance_ds (s : State) : (s.advance).ds = s.ds := rfl
@[simp] theorem State.advance_mem (s : State) : (s.advance).mem = s.mem := rfl
@[simp] theorem State.advance_loaded (s : State) : (s.advance).loaded = s.loaded := rfl
@[simp] theorem State.advance_reg (s : State) (r' : RegIdx) : (s.advance).reg r' = s.reg r' := rfl
@[simp] theorem State.advance_sreg (s : State) (r' : RegIdx) : (s.advance).sreg r' = s.sreg r' := rfl

@[simp] theorem State.fetch_x (s : State) : (s.fetch).x = s.x := rfl
@[simp] theorem State.fetch_f (s : State) : (s.fetch).f = s.f := rfl
@[simp] theorem State.fetch_pc (s : State) : (s.fetch).pc = s.pc := rfl
@[simp] theorem State.fetch_ir (s : State) : (s.fetch).ir = s.mem.read s.pc := rfl
@[simp] theorem State.fetch_ds (s : State) : (s.fetch).ds = s.ds := rfl
@[simp] theorem State.fetch_mem (s : State) : (s.fetch).mem = s.mem := rfl
@[simp] theorem State.fetch_loaded (s : State) : (s.fetch).loaded = s.loaded := rfl
@[simp] theorem State.fetch_reg (s : State) (r' : RegIdx) : (s.fetch).reg r' = s.reg r' := rfl
@[simp] theorem State.fetch_sreg (s : State) (r' : RegIdx) : (s.fetch).sreg r' = s.sreg r' := rfl

/-- A register reads back what was written to it. -/
@[simp] theorem State.reg_setReg_same (s : State) (r : RegIdx) (p : Word) : (s.setReg r p).reg r = p := by
  simp [State.reg, State.setReg]

/-- Writing a register leaves every other register alone. -/
@[simp] theorem State.reg_setReg_other (s : State) {r r' : RegIdx} (h : r' ≠ r) (p : Word) :
    (s.setReg r p).reg r' = s.reg r' := by
  have h' : r.val ≠ r'.val := fun e => h (Fin.ext e.symm)
  simp [State.reg, State.setReg, Vector.getElem_set_ne, h']

end Sys2Proof.Machine
end

