-- ==== Sys2Proof/Laws/Ops.lean ====
section
/-! SUPPORT. What each shared operation can do, said once; proofs cite these and do not unfold. -/

namespace Sys2Proof.Machine

/-- Away from the top of the address space `nextPc` adds one (R18). -/
theorem nextPc_toNat {pc : Addr} (h : pc.toNat < 255) : (nextPc pc).toNat = pc.toNat + 1 := by
  have hne : pc ≠ 255#8 := by rintro rfl; simp at h
  rw [nextPc, if_neg hne, BitVec.toNat_add]
  simp; omega

/-- At the top it leaves the free value. -/
theorem nextPc_top : nextPc 255#8 = Config.pcPastTop := rfl

theorem clampOf_high {v : Int} (h : 32767 < v) : clampOf v = .clampedHigh := by
  simp [clampOf, Config.maxV, h]

theorem clampOf_low {v : Int} (h : v < 0) : clampOf v = .clampedLow := by
  rw [clampOf, if_neg (by simp only [Config.maxV]; omega), if_pos h]

theorem clampOf_ok {v : Int} (h0 : 0 ≤ v) (h1 : v ≤ 32767) : clampOf v = .ok := by
  rw [clampOf, if_neg (by simp only [Config.maxV]; omega), if_neg (by omega)]

theorem checked_high {v : Int} (h : 32767 < v) : checked v = 0x7FFF#16 := by
  rw [checked, clampOf_high h]; rfl

theorem checked_low {v : Int} (h : v < 0) : checked v = 0x8000#16 := by
  rw [checked, clampOf_low h]; rfl

theorem checked_ok {v : Int} (h0 : 0 ≤ v) (h1 : v ≤ 32767) : checked v = BitVec.ofInt 16 v := by
  rw [checked, clampOf_ok h0 h1]; rfl

theorem arithFlags_high {r : Int} (h : 32767 < r) : arithFlags r = ⟨true, true, false, false⟩ := by
  rw [arithFlags, clampOf_high h]

theorem arithFlags_low {r : Int} (h : r < 0) : arithFlags r = ⟨true, true, false, true⟩ := by
  rw [arithFlags, clampOf_low h]

theorem arithFlags_ok {r : Int} (h0 : 0 ≤ r) (h1 : r ≤ 32767) :
    arithFlags r = ⟨false, false, decide (r = 0), false⟩ := by
  rw [arithFlags, clampOf_ok h0 h1]; simp; omega

/-- `dataAddr` answers an address exactly when the register's number lies in the data segment, and then that
number (R140). -/
theorem dataAddr_eq_some {s : State} {rs : RegIdx} {a : Addr} :
    dataAddr s rs = some a ↔ (s.ds.toNat : Int) ≤ s.sreg rs ∧ s.sreg rs < 256 ∧ (a.toNat : Int) = s.sreg rs := by
  have hds := s.ds.isLt
  have ha := a.isLt
  simp only [dataAddr, Config.memSize]
  constructor
  · intro h
    split at h
    · rename_i hc
      obtain rfl := Option.some.inj h
      refine ⟨hc.1, by omega, ?_⟩
      rw [BitVec.toNat_ofInt]; omega
    · cases h
  · rintro ⟨h1, h2, h3⟩
    rw [if_pos ⟨h1, by omega⟩, ← h3]
    simp

/-- `dataAddr` answers none exactly when the number lies outside the data segment (R140). -/
theorem dataAddr_eq_none {s : State} {rs : RegIdx} :
    dataAddr s rs = none ↔ ¬ ((s.ds.toNat : Int) ≤ s.sreg rs ∧ s.sreg rs < 256) := by
  simp only [dataAddr, Config.memSize]
  split <;> simp_all

/-- Everything `jumpTo` can do (R150). -/
theorem jumpTo_eq (n : Int) (s : State) :
    jumpTo n s =
      if 0 ≤ (s.pc.toNat : Int) + n ∧ (s.pc.toNat : Int) + n < (s.ds.toNat : Int) then
        .next (s.setPc (BitVec.ofInt 8 ((s.pc.toNat : Int) + n)))
      else .fault (.segmentViolation .jumpTarget) := rfl

/-- A target that passed the test is stored as it is. -/
theorem toNat_jumpTarget {s : State} {n : Int} (h0 : 0 ≤ (s.pc.toNat : Int) + n)
    (h1 : (s.pc.toNat : Int) + n < (s.ds.toNat : Int)) :
    ((BitVec.ofInt 8 ((s.pc.toNat : Int) + n)).toNat : Int) = (s.pc.toNat : Int) + n := by
  have hds := s.ds.isLt
  rw [BitVec.toNat_ofInt]; omega

/-- The contract allows a Step exactly in a loaded state with `PC < DS` (R190, R193). -/
theorem stepBar_eq_none {s : State} : stepBar s = none ↔ s.loaded = true ∧ s.pc.toNat < s.ds.toNat := by
  unfold stepBar; split_ifs <;> simp_all

end Sys2Proof.Machine
end

