-- ==== Sys2Proof/Laws/Step.lean ====
section
/-! SUPPORT. What Execute and a Step can do, said once: the inversion lemmas that invariants are derived from. -/

namespace Sys2Proof.Machine

/-- What an instruction that completes can have done to the state, whichever it is: `IR`, `DS` and `loaded` stay;
memory stays but for STORE's one cell; `PC` is advanced or is a tested target. -/
structure Effect (i : Instr) (s t : State) : Prop where
  ir_eq : t.ir = s.ir
  ds_eq : t.ds = s.ds
  loaded_eq : t.loaded = s.loaded
  mem_cases : t.mem = s.mem ∨
    ∃ rs1 rs2 a, i = .store rs1 rs2 ∧ dataAddr s rs1 = some a ∧ t.mem = s.mem.write a (s.reg rs2)
  pc_cases : t.pc = nextPc s.pc ∨
    ∃ n, (i = .jump n ∨ i = .jz n ∧ s.f.zero = true ∨ i = .jnz n ∧ s.f.zero = false) ∧
      0 ≤ (s.pc.toNat : Int) + n ∧ (s.pc.toNat : Int) + n < (s.ds.toNat : Int) ∧
      t.pc = BitVec.ofInt 8 ((s.pc.toNat : Int) + n)

/-- An instruction that writes no memory and advances. -/
theorem Effect.of_advance {i : Instr} {s u : State} (h1 : u.ir = s.ir) (h2 : u.ds = s.ds)
    (h3 : u.loaded = s.loaded) (h4 : u.mem = s.mem) (h5 : u.pc = s.pc) : Effect i s u.advance :=
  ⟨h1, h2, h3, .inl h4, .inl (by rw [State.advance_pc, h5])⟩

/-- A taken jump that passed its test. -/
theorem Effect.of_jumpTo {i : Instr} {s t : State} {n : Int}
    (hi : i = .jump n ∨ i = .jz n ∧ s.f.zero = true ∨ i = .jnz n ∧ s.f.zero = false)
    (h : jumpTo n s = .next t) : Effect i s t := by
  rw [jumpTo_eq] at h
  split at h
  · rename_i hc
    cases h
    exact ⟨rfl, rfl, rfl, .inl rfl, .inr ⟨n, hi, hc.1, hc.2, rfl⟩⟩
  · cases h

/-- Every instruction that completes has only such an effect. -/
theorem exec_effect {i : Instr} {s t : State} (h : exec i s = .next t) : Effect i s t := by
  cases i with
  | add | sub | and | or | xor | not | shl | shr | cmp | loadi | nop =>
    cases h; exact Effect.of_advance rfl rfl rfl rfl rfl
  | load rd rs1 =>
    simp only [exec, execLoad] at h
    split at h
    · cases h; exact Effect.of_advance rfl rfl rfl rfl rfl
    · cases h
  | store rs1 rs2 =>
    simp only [exec, execStore] at h
    split at h
    · rename_i a ha
      cases h; exact ⟨rfl, rfl, rfl, .inr ⟨rs1, rs2, a, rfl, ha, rfl⟩, .inl rfl⟩
    · cases h
  | jump n => exact Effect.of_jumpTo (.inl rfl) h
  | jz n =>
    simp only [exec, execJz] at h
    split at h
    · exact Effect.of_jumpTo (.inr (.inl ⟨rfl, ‹_›⟩)) h
    · cases h; exact Effect.of_advance rfl rfl rfl rfl rfl
  | jnz n =>
    simp only [exec, execJnz] at h
    split at h
    · exact Effect.of_jumpTo (.inr (.inr ⟨rfl, ‹_›⟩)) h
    · cases h; exact Effect.of_advance rfl rfl rfl rfl rfl

/-- A Step answers a next state exactly when the contract allows one and Execute does; then it is Execute's state
after the Fetch (R101). -/
theorem step_eq_next {s t : State} :
    step s = .next t ↔ (s.loaded = true ∧ s.pc.toNat < s.ds.toNat) ∧
      ∃ u, exec (decode s.ir) s = .next u ∧ t = u.fetch := by
  rw [← stepBar_eq_none]
  unfold step
  cases hb : stepBar s with
  | some r => simp
  | none => cases exec (decode s.ir) s <;> simp [fetchAfter, eq_comm]

/-- A Step answers a fault exactly when the contract allows a Step and Execute raises it (R101, R107). -/
theorem step_eq_fault {s : State} {e : Fault} :
    step s = .fault e ↔ (s.loaded = true ∧ s.pc.toNat < s.ds.toNat) ∧ exec (decode s.ir) s = .fault e := by
  rw [← stepBar_eq_none]
  unfold step
  cases hb : stepBar s with
  | some r => simp
  | none => cases exec (decode s.ir) s <;> simp [fetchAfter]

end Sys2Proof.Machine
end

