-- ==== Sys2Proof/Laws/HostOps.lean ====
section
/-! SUPPORT. Laws of the host's operations: the image Load writes, and `State.reset` as the Reset of one `INIT`. -/

namespace Sys2Proof.Machine

/-- What a cell holds after an image is written: the image's word, or what it held (R191, R52). -/
theorem Memory.get_writeImage (ws : List Word) {m : Memory} {a : Nat} (b : Nat) (hm : m.wf = true)
    (h : a + ws.length ≤ Config.memSize) :
    Memory.get (m.writeImage a ws) b = if b < a then Memory.get m b else (ws[b - a]?).getD (Memory.get m b) := by
  induction ws generalizing m a with
  | nil => simp [Memory.writeImage]
  | cons w ws ih =>
    simp only [List.length_cons] at h
    rw [Memory.writeImage, ih (Memory.wfFrom_put hm (Nat.zero_le _) (by omega) w) (by omega)]
    rcases lt_trichotomy b a with hb | rfl | hb
    · rw [if_pos (by omega), if_pos hb, Memory.get_put_other _ (by omega)]
    · rw [if_pos (by omega), if_neg (by omega), Memory.get_put_same hm]; simp
    · rw [if_neg (by omega), if_neg (by omega), Memory.get_put_other _ (by omega),
        show b - a = (b - (a + 1)) + 1 by omega, List.getElem?_cons_succ]

/-- Writing the unlisted value to an empty memory lists nothing. -/
theorem Memory.writeImage_unlisted (n a : Nat) :
    Memory.writeImage [] a (List.replicate n Memory.unlisted) = [] := by
  induction n generalizing a with
  | zero => rfl
  | succ n ih => rw [List.replicate_succ, Memory.writeImage]; exact ih (a + 1)

/-- `State.reset` is the Reset of R190 at the `INIT` of log entries 2 and 3. -/
theorem State.reset_eq_resetWith : State.reset = State.resetWith initOfReset := by
  have h : Memory.writeImage [] 0 initOfReset.mem.toList = [] := by
    rw [initOfReset, Vector.toList_replicate]; exact Memory.writeImage_unlisted 256 0
  rw [State.resetWith, h]; rfl

/-- Load of an image that fits, as one state (R191). -/
theorem loadImage_eq_next {ws : List Word} (h : ws.length ≤ Config.maxProg) (s : State) :
    loadImage ws s = .next (State.fetch { s with
      mem := s.mem.writeImage 0 ws, ds := BitVec.ofNat 8 ws.length, pc := 0#8, loaded := true }) :=
  if_pos h

/-- One step of a run of any machine of the host's interface. -/
theorem core_run_of_next (M : Host.Core) {s t : M.State} (h : M.step s = .next t) (k : Nat) :
    M.run (k + 1) s = M.run k t := by rw [Host.Core.run, h]

theorem core_run_of_fault (M : Host.Core) {s : M.State} {e : M.Fault} (h : M.step s = .fault e) (k : Nat) :
    M.run (k + 1) s = .fault e := by rw [Host.Core.run, h]

theorem core_run_of_refused (M : Host.Core) {s : M.State} {e : M.Refusal} (h : M.step s = .refused e) (k : Nat) :
    M.run (k + 1) s = .refused e := by rw [Host.Core.run, h]

/-- The runs of Safety.lean are the runs of the host's interface. -/
theorem runSteps_eq_core_run (k : Nat) (s : State) : runSteps k s = Sys2Proof.core.run k s := by
  induction k generalizing s with
  | zero => rfl
  | succ k ih =>
    rw [runSteps]
    cases hs : step s with
    | next t => exact (ih t).trans (core_run_of_next Sys2Proof.core hs k).symm
    | fault r => exact (core_run_of_fault Sys2Proof.core hs k).symm
    | refused r => exact (core_run_of_refused Sys2Proof.core hs k).symm

/-- An operation that errs or is refused leaves the state as it was (R107, R177). -/
@[simp] theorem stateAfter_fault (s : State) (e : Fault) : stateAfter s (.fault e) = s := rfl

@[simp] theorem stateAfter_refused (s : State) (e : Refusal) : stateAfter s (.refused e) = s := rfl

@[simp] theorem stateAfter_next (s t : State) : stateAfter s (.next t) = t := rfl

end Sys2Proof.Machine
end

