-- ==== Sys2Proof/Laws/PerInstr.lean ====
section
/-! SUPPORT. The statement family over all instructions: the opcode of an instruction stands in the top four bits of its
word (30_encoding.md rules R62 and R69); and the fields of each format's word. -/

namespace Sys2Proof

open BitVec in
/-- The opcode field of a word of each format (R63 to R68). -/
theorem opcode_formatR3 (op : BitVec 4) (rd rs1 rs2 : RegIdx) : (formatR3 op rd rs1 rs2).extractLsb' 12 4 = op := by
  rw [formatR3, extractLsb'_append_eq_of_le (by omega), extractLsb'_append_eq_of_le (by omega),
    extractLsb'_append_eq_of_le (by omega)]
  exact extractLsb'_append_eq_left

open BitVec in
theorem opcode_formatR2 (op : BitVec 4) (rd rs1 : RegIdx) : (formatR2 op rd rs1).extractLsb' 12 4 = op := by
  rw [formatR2, extractLsb'_append_eq_of_le (by omega), extractLsb'_append_eq_of_le (by omega)]
  exact extractLsb'_append_eq_left

open BitVec in
theorem opcode_formatRS (op : BitVec 4) (rs1 rs2 : RegIdx) : (formatRS op rs1 rs2).extractLsb' 12 4 = op := by
  rw [formatRS, extractLsb'_append_eq_of_le (by omega), extractLsb'_append_eq_of_le (by omega),
    extractLsb'_append_eq_of_le (by omega)]
  exact extractLsb'_append_eq_left

open BitVec in
theorem opcode_formatJ (op : BitVec 4) (n : Int) : (formatJ op n).extractLsb' 12 4 = op := by
  rw [formatJ, extractLsb'_append_eq_of_le (by omega)]
  exact extractLsb'_append_eq_left

theorem opcode_formatI (op : BitVec 4) (n : Int) : (formatI op n).extractLsb' 12 4 = op :=
  BitVec.extractLsb'_append_eq_left

theorem opcode_formatN (op : BitVec 4) : (formatN op).extractLsb' 12 4 = op :=
  BitVec.extractLsb'_append_eq_left

namespace Laws.OpcodeOnTop

/-- The word of `i` carries the opcode of `i` in bits 15 to 12. -/
def Statement (i : Instr) : Prop := (encode i).extractLsb' 12 4 = opcodeOf i

theorem add (rd rs1 rs2 : RegIdx) : Statement (.add rd rs1 rs2) := opcode_formatR3 _ rd rs1 rs2

theorem sub (rd rs1 rs2 : RegIdx) : Statement (.sub rd rs1 rs2) := opcode_formatR3 _ rd rs1 rs2

theorem and (rd rs1 rs2 : RegIdx) : Statement (.and rd rs1 rs2) := opcode_formatR3 _ rd rs1 rs2

theorem or (rd rs1 rs2 : RegIdx) : Statement (.or rd rs1 rs2) := opcode_formatR3 _ rd rs1 rs2

theorem xor (rd rs1 rs2 : RegIdx) : Statement (.xor rd rs1 rs2) := opcode_formatR3 _ rd rs1 rs2

theorem not (rd rs1 : RegIdx) : Statement (.not rd rs1) := opcode_formatR2 _ rd rs1

theorem shl (rd rs1 : RegIdx) : Statement (.shl rd rs1) := opcode_formatR2 _ rd rs1

theorem shr (rd rs1 : RegIdx) : Statement (.shr rd rs1) := opcode_formatR2 _ rd rs1

theorem load (rd rs1 : RegIdx) : Statement (.load rd rs1) := opcode_formatR2 _ rd rs1

theorem cmp (rs1 rs2 : RegIdx) : Statement (.cmp rs1 rs2) := opcode_formatRS _ rs1 rs2

theorem store (rs1 rs2 : RegIdx) : Statement (.store rs1 rs2) := opcode_formatRS _ rs1 rs2

theorem jump (n : Int) : Statement (.jump n) := opcode_formatJ _ n

theorem jz (n : Int) : Statement (.jz n) := opcode_formatJ _ n

theorem jnz (n : Int) : Statement (.jnz n) := opcode_formatJ _ n

theorem loadi (n : Int) : Statement (.loadi n) := opcode_formatI _ n

theorem nop : Statement .nop := opcode_formatN _

end Laws.OpcodeOnTop

end Sys2Proof
end

