-- ==== Sys2Proof/Tests/Slice0.lean ====
section
/-! SUPPORT. The model's own tests: expected values are the spec's own examples and vectors (95_test_vectors.md and
the rules' examples), each cited; and for every obligation with hypotheses a witness that meets them. -/

namespace Sys2Proof.Tests

open Sys2Proof.Machine

/-! ## WellFormed smoke: an ill-formed term for each check (R84; 95_test_vectors.md §2.1 "Assembly failures") -/

theorem test_wf_jump_high : wellFormed (.jump 128) = false := by decide
theorem test_wf_jump_low : wellFormed (.jump (-129)) = false := by decide
theorem test_wf_jz_low : wellFormed (.jz (-129)) = false := by decide
theorem test_wf_jz_high : wellFormed (.jz 128) = false := by decide
theorem test_wf_jnz_high : wellFormed (.jnz 128) = false := by decide
theorem test_wf_jnz_low : wellFormed (.jnz (-129)) = false := by decide
theorem test_wf_loadi_high : wellFormed (.loadi 2048) = false := by decide
theorem test_wf_loadi_low : wellFormed (.loadi (-2049)) = false := by decide

/-! ## Decode: one word per constructor, bit by bit from the formats R63 to R68 and the words of §2.1 -/

theorem test_decode_add : decode 0b0000_000_001_010_000#16 = .add 0 1 2 := by decide
theorem test_decode_sub : decode 0b0001_001_001_010_000#16 = .sub 1 1 2 := by decide
theorem test_decode_and : decode 0b0010_011_001_001_000#16 = .and 3 1 1 := by decide
theorem test_decode_or : decode 0b0011_001_000_000_000#16 = .or 1 0 0 := by decide
theorem test_decode_xor : decode 0b0100_111_011_100_000#16 = .xor 7 3 4 := by decide
theorem test_decode_not : decode 0b0101_011_010_000000#16 = .not 3 2 := by decide
theorem test_decode_shl : decode 0b0110_001_000_000000#16 = .shl 1 0 := by decide
theorem test_decode_shr : decode 0b0111_010_001_000000#16 = .shr 2 1 := by decide
theorem test_decode_load : decode 0b1000_010_001_000000#16 = .load 2 1 := by decide
theorem test_decode_cmp : decode 0b1001_000_000_001_000#16 = .cmp 0 1 := by decide
theorem test_decode_store : decode 0b1010_000_001_000_000#16 = .store 1 0 := by decide
theorem test_decode_jump : decode 0b1011_0000_11111101#16 = .jump (-3) := by decide
theorem test_decode_jz : decode 0b1100_0000_01111111#16 = .jz 127 := by decide
theorem test_decode_jnz : decode 0b1101_0000_10000000#16 = .jnz (-128) := by decide
theorem test_decode_loadi : decode 0b1110_111111111011#16 = .loadi (-5) := by decide
theorem test_decode_nop : decode 0b1111_000000000000#16 = .nop := by decide
/-- §2.1, unused bits: 0057, FABC, 9E08, BF01, 527F. -/
theorem test_decode_unused : decode 0x0057#16 = .add 0 1 2 ∧ decode 0xFABC#16 = .nop ∧ decode 0x9E08#16 = .cmp 0 1 ∧
    decode 0xBF01#16 = .jump 1 ∧ decode 0x527F#16 = .not 1 1 := by decide
/-- §2.1, the words the assembler emits. -/
theorem test_encode : encode (.add 7 7 7) = 0x0FF8#16 ∧ encode (.store 1 0) = 0xA040#16 ∧
    encode (.jnz (-128)) = 0xD080#16 ∧ encode (.loadi (-2048)) = 0xE800#16 := by decide
theorem test_tableWord : decodeTableWord 16 0x8440 = some (.load 2 1) := by decide

/-! ## Execute -/

/-- Three registers, flags, `PC` = 5, `DS` = 10, `MEM[16]` = `cell`. -/
def st (x0 x1 x2 : Word) (f : Flags) (cell : Word) : State where
  x := #v[x0, x1, x2, 0x00AA#16, 0#16, 0#16, 0#16, 0xFFFF#16]
  f := f
  pc := 5#8
  ir := 0xF000#16
  ds := 10#8
  mem := Memory.write [(5, 0xF000#16)] 16#8 cell
  loaded := true

/-- The flags `ovf carry zero sign`. -/
def fl (o c z n : Bool) : Flags := ⟨o, c, z, n⟩

/-- The next state, if there is one. -/
def after : Result → Option State
  | .next t => some t
  | .fault _ => none
  | .refused _ => none

/-- The cause, if the outcome is a segment violation. -/
def causeOf : Result → Option Cause
  | .fault (.segmentViolation k) => some k
  | .fault .assemblyFailure => none
  | .next _ => none
  | .refused _ => none

/-- Register `r` and the flags of the next state. -/
def regFlags (r : RegIdx) (o : Result) : Option (Word × Flags) := (after o).map fun t => (t.reg r, t.f)

/-- `PC` of the next state. -/
def pcOf (o : Result) : Option Addr := (after o).map fun t => t.pc

/-- §2.3: 7FFF + 0001 clamps high. -/
theorem test_add_clamps_high : regFlags 0 (exec (.add 0 1 2) (st 0 0x7FFF#16 1#16 (fl false false true true) 0)) =
    some (0x7FFF#16, fl true true false false) := by decide
/-- §2.3: FFFB + 0003 = -2 clamps low; the destination is also a source (R110). -/
theorem test_add_clamps_low : regFlags 1 (exec (.add 1 1 2) (st 0 0xFFFB#16 3#16 (fl false false true false) 0)) =
    some (0x8000#16, fl true true false true) := by decide
/-- §2.3: 0000 - 8000 = 32768 clamps high. -/
theorem test_sub_clamps_high : regFlags 0 (exec (.sub 0 1 2) (st 5 0 0x8000#16 (fl false false true true) 0)) =
    some (0x7FFF#16, fl true true false false) := by decide
/-- §2.3: FFFB - FFFA = 1. -/
theorem test_sub_ok : regFlags 0 (exec (.sub 0 1 2) (st 5 0xFFFB#16 0xFFFA#16 (fl true true true true) 0)) =
    some (1#16, fl false false false false) := by decide
/-- R122: 3 - 5 sets `ovf`, `carry`, `sign`, and no register changes. -/
theorem test_cmp_less : (after (exec (.cmp 1 2) (st 9 3 5 (fl false false true false) 0))).map
    (fun t => (t.x, t.f)) = some ((st 9 3 5 (fl false false true false) 0).x, fl true true false true) := by decide
/-- §2.4: FFFB and 8000, AND clears `ovf` and `carry`. -/
theorem test_and : regFlags 0 (exec (.and 0 1 2) (st 0 0xFFFB#16 0x8000#16 (fl true true true false) 0)) =
    some (0x8000#16, fl false false false true) := by decide
/-- §2.4: 8000 or 7FFF, `ovf` and `carry` kept. -/
theorem test_or : regFlags 0 (exec (.or 0 1 2) (st 0 0x8000#16 0x7FFF#16 (fl true false true false) 0)) =
    some (0xFFFF#16, fl true false false true) := by decide
/-- §2.4: FFFB xor 8000. -/
theorem test_xor : regFlags 0 (exec (.xor 0 1 2) (st 0 0xFFFB#16 0x8000#16 (fl false true true true) 0)) =
    some (0x7FFB#16, fl false true false false) := by decide
/-- §2.4: not FFFB. -/
theorem test_not : regFlags 0 (exec (.not 0 1) (st 0 0xFFFB#16 0 (fl true true true true) 0)) =
    some (4#16, fl true true false false) := by decide
/-- §2.4 (decision D8): SHL of 8000 loses the bit. -/
theorem test_shl : regFlags 0 (exec (.shl 0 1) (st 7 0x8000#16 0 (fl true true false true) 0)) =
    some (0#16, fl true true true false) := by decide
/-- §2.4 (decision D8): SHR of FFFB is logical. -/
theorem test_shr : regFlags 0 (exec (.shr 0 1) (st 7 0xFFFB#16 0 (fl true false true true) 0)) =
    some (0x7FFD#16, fl true false false false) := by decide
/-- §2.5: LOAD of 0123, flags unchanged. -/
theorem test_load_copies : regFlags 0 (exec (.load 0 1) (st 0 16 0 (fl true false true true) 0x0123#16)) =
    some (0x0123#16, fl true false true true) := by decide
/-- §2.5: LOAD of FFFB clamps to 8000. -/
theorem test_load_clamps : regFlags 0 (exec (.load 0 1) (st 0 16 0 (fl true false true true) 0xFFFB#16)) =
    some (0x8000#16, fl true false true true) := by decide
/-- §2.5: STORE of FFFB is raw. -/
theorem test_store_raw : (after (exec (.store 1 2) (st 0 255 0xFFFB#16 (fl true false true true) 0))).map
    (fun t => (t.mem.read 255#8, t.pc)) = some (0xFFFB#16, 6#8) := by decide
/-- §2.5: STORE at `DS - 1` violates. -/
theorem test_store_below_ds :
    causeOf (exec (.store 1 2) (st 0 9 0xFFFB#16 (fl true false true true) 0)) = some .storeAddress := by decide
/-- §2.6: `PC` = 5, JUMP -5 goes to 0; JUMP 5 is to `DS` and violates. -/
theorem test_jump : pcOf (exec (.jump (-5)) (st 0 0 0 (fl false false false false) 0)) = some 0#8 := by decide
theorem test_jump_to_ds :
    causeOf (exec (.jump 5) (st 0 0 0 (fl false false false false) 0)) = some .jumpTarget := by decide
/-- §2.6: JZ taken, and not taken with a target out of range. -/
theorem test_jz_taken : pcOf (exec (.jz 2) (st 0 0 0 (fl false false true false) 0)) = some 7#8 := by decide
theorem test_jz_not_taken : pcOf (exec (.jz 100) (st 0 0 0 (fl false false false false) 0)) = some 6#8 := by decide
/-- §2.6: JNZ taken and not taken. -/
theorem test_jnz_taken : pcOf (exec (.jnz (-2)) (st 0 0 0 (fl true true false true) 0)) = some 3#8 := by decide
theorem test_jnz_not_taken : pcOf (exec (.jnz 2) (st 0 0 0 (fl false false true false) 0)) = some 6#8 := by decide
/-- §2.7: LOADI -5 is raw, LOADI 0 does not set `zero`. -/
theorem test_loadi_raw : regFlags 0 (exec (.loadi (-5)) (st 0 0 0 (fl true false true false) 0)) =
    some (0xFFFB#16, fl true false true false) := by decide
theorem test_loadi_zero : regFlags 0 (exec (.loadi 0) (st 3 0 0 (fl false false false false) 0)) =
    some (0#16, fl false false false false) := by decide
/-- §2.7: NOP. -/
theorem test_nop : (after (exec .nop (st 1 2 3 (fl true true true true) 4))) =
    some ((st 1 2 3 (fl true true true true) 4).setPc 6#8) := by decide

/-! ## Step, Load, assembler, views -/

/-- R105: after a JUMP the new `IR` is the word at the target. -/
theorem test_step_fetches : (after (step ((st 0 0 0 (fl false false false false) 0).withFetchWord 16 0xB000))).map
    (fun t => (t.pc, t.ir)) = some (5#8, 0xB000#16) := by decide
/-- §2.8: Load of E005, EFFB over MEM[0..3] = 1111, 2222, 3333, 4444. -/
theorem test_load_image : (after (loadImage [0xE005#16, 0xEFFB#16]
    { st 0 0 0 (fl true false true false) 0 with
      mem := [(0, 0x1111#16), (1, 0x2222#16), (2, 0x3333#16), (3, 0x4444#16)] })).map
    (fun t => (t.mem, t.ds, t.pc, t.ir, t.reg 3, t.f)) =
    some ([(0, 0xE005#16), (1, 0xEFFB#16), (2, 0x3333#16), (3, 0x4444#16)], 2#8, 0#8, 0xE005#16, 0x00AA#16,
      fl true false true false) := by decide
/-- Placing a word after Reset is the Load of that one word (log entry 10). -/
theorem test_withFetchWord_is_load :
    after (loadImage [0x0050#16] State.reset) = some (State.reset.withFetchWord 16 0x0050) := by decide
/-- R190: no Step before the first Load. -/
theorem test_reset_refuses : step State.reset = .refused .stepBeforeLoad := rfl
/-- §2.1 and R84: the edge is accepted, beyond it the line fails; the refusals of U5, U6 and N14. -/
theorem test_assemble_edges : assembleLine ['J', 'U', 'M', 'P', ' ', '-', '1', '2', '8'] = some 0xB080#16 ∧
    assembleLine ['J', 'U', 'M', 'P', ' ', '1', '2', '8'] = none := by decide
theorem test_assemble_refuses : assembleLine [] = none ∧ assembleLine ['N', 'O', 'P', ' '] = none ∧
    assembleLine ['J', 'Z', ' ', '-', '0'] = none ∧ assembleLine ['J', 'Z', ' ', '+', '3'] = none ∧
    assembleLine ['A', 'D', 'D', ' ', 'A', 'x', ' ', 'B', 'x'] = none ∧ assembleLine ['n', 'o', 'p'] = none := by decide
theorem test_assemble_cmp : assembleLine ['C', 'M', 'P', ' ', 'A', 'x', '\t', ' ', 'B', 'x'] = some 0x9008#16 := by
  decide
/-- R27: the views of 0x0050 and of 0x8000. -/
theorem test_binaryView : binaryView 0x0050#16 =
    ['0', '0', '0', '0', '0', '0', '0', '0', '0', '1', '0', '1', '0', '0', '0', '0'] := by decide
theorem test_decView : decView 0x8000#16 = ['-', '3', '2', '7', '6', '8'] := by decide
theorem test_hexView : hexView 0x0123#16 = ['0', '1', '2', '3'] := by decide
/-- R22: flag index 0 is `ovf`, 3 is `sign`. -/
theorem test_flagAt : (st 0 0 0 (fl true false false false) 0).flagAt 0 = true ∧
    (st 0 0 0 (fl true false false false) 0).flagAt 3 = false := by decide

/-! ## Witnesses: a state and operands that meet the hypotheses of each obligation that has some -/

/-- A state for the witnesses: `DS` = 10, `PC` = `pc`, the word at `PC` is `w`. -/
def ws (pc : Addr) (w : Word) (x1 : Word) (zero : Bool) : State where
  x := #v[0#16, x1, 0xFFFB#16, 0#16, 0#16, 0#16, 0#16, 0#16]
  f := ⟨false, false, zero, false⟩
  pc := pc
  ir := w
  ds := 10#8
  mem := Memory.write [] pc w
  loaded := true

/-- Encoding obligations: well-formed at both ends of each field. -/
theorem wit_wellFormed_edges : wellFormed (.jump (-128)) = true ∧ wellFormed (.jz 127) = true ∧
    wellFormed (.jnz (-128)) = true ∧ wellFormed (.loadi (-2048)) = true ∧ wellFormed (.loadi 2047) = true ∧
    wellFormed (.add 0 7 7) = true := by decide
/-- AssemblerAcceptsEverySyntax, second clause. -/
theorem wit_assembleLine : assembleLine ['N', 'O', 'P'] = some 0xF000#16 := by decide
/-- LiteralsOutOfRangeDoNotAssemble, inside and just outside the ranges. -/
theorem wit_parseLiteral : parseLiteral ['-', '1', '2', '8'] = some (-128) ∧ parseLiteral ['1', '2', '8'] = some 128 ∧
    parseLiteral ['2', '0', '4', '7'] = some 2047 ∧ parseLiteral ['-', '2', '0', '4', '9'] = some (-2049) := by decide
/-- LOAD, STORE: the first and last data addresses, and the numbers just outside. -/
theorem wit_inData_first : ((ws 5 0 10 false).reg 1).toInt = ((10#8).toNat : Int) ∧
    InData (ws 5 0 10 false) ((ws 5 0 10 false).reg 1).toInt := by unfold InData; decide
theorem wit_inData_last : ((ws 5 0 255 false).reg 1).toInt = ((255#8).toNat : Int) ∧
    InData (ws 5 0 255 false) ((ws 5 0 255 false).reg 1).toInt := by unfold InData; decide
theorem wit_not_inData : ¬ InData (ws 5 0 9 false) ((ws 5 0 9 false).reg 1).toInt ∧
    ¬ InData (ws 5 0 256 false) ((ws 5 0 256 false).reg 1).toInt ∧
    ¬ InData (ws 5 0 0xFFFF#16 false) ((ws 5 0 0xFFFF#16 false).reg 1).toInt := by unfold InData; decide
/-- StoreWritesDataSegmentRaw, StoreThenLoadClampsNegatives, LoadInstallsProgram, FirstStepRunsWordZero. -/
theorem wit_mem_wf : (ws 5 0xF000#16 10 false).mem.wf = true := by decide
/-- StoreThenLoadClampsNegatives, all hypotheses together, at both ends of the data segment. -/
theorem wit_store_then_load :
    (ws 5 0xF000#16 10 false).mem.wf = true ∧ InData (ws 5 0xF000#16 10 false) ((ws 5 0xF000#16 10 false).reg 1).toInt ∧
    (ws 5 0xF000#16 255 false).mem.wf = true ∧
    InData (ws 5 0xF000#16 255 false) ((ws 5 0xF000#16 255 false).reg 1).toInt := by unfold InData; decide
/-- StoreWritesDataSegmentRaw, the clause on the Fetch: a STORE at `DS - 1` to the cell at `DS` (R51). -/
theorem wit_store_to_next_fetch :
    InData (ws 9 0xA050#16 10 false) ((ws 9 0xA050#16 10 false).reg 1).toInt ∧ (ws 9 0xA050#16 10 false).mem.wf = true ∧
    ∃ t, exec (.store 1 2) (ws 9 0xA050#16 10 false) = .next t ∧ t.pc = 10#8 :=
  ⟨by unfold InData; decide, by decide, _, rfl, by decide⟩
/-- LOADI, the ends of its field, and NOP with all unused bits set. -/
theorem wit_field_ends : decode (BitVec.ofNat 16 (0xE000 + ((-2048 : Int) % 4096).toNat)) = .loadi (-2048) ∧
    decode (BitVec.ofNat 16 (0xE000 + ((2047 : Int) % 4096).toNat)) = .loadi 2047 ∧
    decode (BitVec.ofNat 16 (0xF000 + 4095)) = .nop := by decide
/-- JUMP: the first and last code addresses as targets, and the ones just outside. -/
theorem wit_inCode : InCode (ws 5 0 0 false) (((ws 5 0 0 false).pc.toNat : Int) + (-5)) ∧
    InCode (ws 5 0 0 false) (((ws 5 0 0 false).pc.toNat : Int) + 4) ∧
    ¬ InCode (ws 5 0 0 false) (((ws 5 0 0 false).pc.toNat : Int) + (-6)) ∧
    ¬ InCode (ws 5 0 0 false) (((ws 5 0 0 false).pc.toNat : Int) + 5) := by unfold InCode; decide
/-- JZ, JNZ: `zero` set and clear, each with a target inside and outside. -/
theorem wit_zero : (ws 5 0 0 true).f.zero = true ∧ (ws 5 0 0 false).f.zero = false ∧
    InCode (ws 5 0 0 true) (((ws 5 0 0 true).pc.toNat : Int) + 4) ∧
    ¬ InCode (ws 5 0 0 true) (((ws 5 0 0 true).pc.toNat : Int) + 5) := by unfold InCode; decide
/-- CompareThenBranchOnEqual, at the last `PC` it covers. -/
theorem wit_compareThenBranch :
    let s : State := { ws 253 0 0 false with ds := 255#8 }
    s.pc.toNat < 254 ∧ InCode s ((s.pc.toNat : Int) + 1 + 0) := by unfold InCode; decide
/-- PcPlusOne in every result statement. -/
theorem wit_pc_below_top : (ws 254 0 0 false).pc.toNat < 255 := by decide
/-- PcAdvancesOrTakesTestedTarget, FlagsWrittenOnlyAsTabled: an instruction that completes, at `PC` = 254 and at the
top, and a taken jump. -/
theorem wit_exec_next : (∃ t, exec .nop (ws 254 0 0 false) = .next t) ∧ (∃ t, exec .nop (ws 255 0 0 false) = .next t) ∧
    ∃ t, exec (.jump 4) (ws 5 0 0 false) = .next t := ⟨⟨_, rfl⟩, ⟨_, rfl⟩, ⟨_, rfl⟩⟩
/-- OvfCarrySignAreNeverRead: two states that differ in the three flags. -/
theorem wit_unread_flags :
    let s := ws 5 0 0 true
    let s' : State := { s with f := ⟨true, true, true, true⟩ }
    s' = { s with f := s'.f } ∧ s'.f.zero = s.f.zero ∧ s' ≠ s ∧ ∃ t, exec (.jz 4) s = .next t := by
  refine ⟨rfl, rfl, by decide, _, rfl⟩
/-- StepRunsDecodedInstruction, StepIsOkOrViolation: the Step is allowed, under the invariant, and Execute
completes (a NOP at `DS - 1`) or raises (a JUMP to `DS`). -/
theorem wit_step : (ws 9 0xF000#16 0 false).mayStep ∧ (ws 9 0xF000#16 0 false).Inv ∧
    (∃ t, exec (decode (ws 9 0xF000#16 0 false).ir) (ws 9 0xF000#16 0 false) = .next t) ∧
    (ws 9 0xB001#16 0 false).mayStep ∧
    exec (decode (ws 9 0xB001#16 0 false).ir) (ws 9 0xB001#16 0 false) = .fault (.segmentViolation .jumpTarget) :=
  ⟨by unfold State.mayStep; decide, by unfold State.Inv; decide, ⟨_, rfl⟩, by unfold State.mayStep; decide, rfl⟩
/-- StepOutsideTheContractIsRefused: before a Load, and at `PC = DS`. -/
theorem wit_step_barred : State.reset.loaded = false ∧ (ws 10 0 0 false).loaded = true ∧
    (ws 10 0 0 false).ds.toNat ≤ (ws 10 0 0 false).pc.toNat := by decide
/-- ViolationRepeatsForever: the program P7's second word at its own place. -/
theorem wit_step_violates : step (ws 9 0xB001#16 0 false) = .fault (.segmentViolation .jumpTarget) := rfl
/-- StepKeepsDsAndCodeSegment, StepKeepsInvariant, RunEndsOnlyByFallingThrough: a Step that completes from a state
of the invariant, leaves `PC = DS`, with a code cell to keep. -/
theorem wit_step_to_end : (ws 9 0xF000#16 0 false).Inv ∧
    (∃ t, step (ws 9 0xF000#16 0 false) = .next t ∧ t.done = true) ∧
    (9#8).toNat < (ws 9 0xF000#16 0 false).ds.toNat :=
  ⟨by unfold State.Inv; decide, ⟨_, rfl, by decide⟩, by decide⟩
/-- RunEndsInExactlyOneWay: a loaded state of the invariant for each of the three ways. -/
theorem wit_runs : (ws 9 0xF000#16 0 false).Inv ∧ (ws 9 0xB001#16 0 false).Inv ∧ (ws 9 0xB000#16 0 false).Inv ∧
    (ws 9 0xF000#16 0 false).loaded = true := by unfold State.Inv; decide
/-- LoadInstallsProgram, FirstStepRunsWordZero: the longest and the shortest image, and one word too many. -/
theorem wit_image_lengths : (List.replicate 255 0xF000#16).length ≤ 255 ∧ ([] : List Word).length ≤ 255 ∧
    255 < (List.replicate 256 0xF000#16).length ∧ (List.replicate 254 0xF000#16).length ≤ 254 := by
  simp only [List.length_replicate, List.length_nil]; decide
/-- FailedLoadChangesNothing: a program with a bad line, one that assembles, and a line out of range. -/
theorem wit_lines : (∃ l ∈ [['N', 'O', 'P'], ['H', 'L', 'T']], assembleLine l = none) ∧
    [['N', 'O', 'P']].map assembleLine = [0xF000#16].map some ∧
    tokenize ['J', 'Z', ' ', '1', '2', '8'] = some [['J', 'Z'], ['1', '2', '8']] ∧
    parseTokens [['J', 'Z'], ['1', '2', '8']] = some (.jz 128) ∧ wellFormed (.jz 128) = false := by decide
/-- HostOperationsKeepInvariant: the reset state meets the invariant. -/
theorem wit_reset_inv : State.reset.Inv := by unfold State.Inv; decide
/-- CanonicalMemoryIsTheCells, second clause: canonical lists with a cell at each end of the space. -/
theorem wit_canonical : Memory.wf [(0, 1#16), (255, 0xFFFF#16)] = true ∧ Memory.wf [(256, 1#16)] = false ∧
    Memory.wf [(3, 0#16)] = false ∧ Memory.wf [(3, 1#16), (3, 1#16)] = false := by decide

end Sys2Proof.Tests
end

section
/-! Encoding (30_encoding.md): the numbers of the encoder's words, and the decoder's fields in integer arithmetic. -/

namespace Sys2Proof

/-- Concatenation of patterns in integer arithmetic: the upper part counts at the weight of its lowest bit. -/
theorem toNat_append_eq_add {m n : Nat} (x : BitVec m) (y : BitVec n) :
    (x ++ y).toNat = x.toNat * 2 ^ n + y.toNat := by
  rw [BitVec.toNat_append, ← Nat.shiftLeft_add_eq_or_of_lt y.isLt, Nat.shiftLeft_eq]

@[simp] theorem toNat_regBits (r : RegIdx) : (regBits r).toNat = r.val :=
  Nat.mod_eq_of_lt r.isLt

/-! The number of a word of each format (R63 to R68): opcode and fields at their weights. -/

theorem toNat_formatR3 (op : BitVec 4) (rd rs1 rs2 : RegIdx) :
    (formatR3 op rd rs1 rs2).toNat = op.toNat * 4096 + rd.val * 512 + rs1.val * 64 + rs2.val * 8 := by
  simp only [formatR3, toNat_append_eq_add, toNat_regBits, BitVec.toNat_ofNat]
  omega

theorem toNat_formatR2 (op : BitVec 4) (rd rs1 : RegIdx) :
    (formatR2 op rd rs1).toNat = op.toNat * 4096 + rd.val * 512 + rs1.val * 64 := by
  simp only [formatR2, toNat_append_eq_add, toNat_regBits, BitVec.toNat_ofNat]
  omega

theorem toNat_formatRS (op : BitVec 4) (rs1 rs2 : RegIdx) :
    (formatRS op rs1 rs2).toNat = op.toNat * 4096 + rs1.val * 64 + rs2.val * 8 := by
  simp only [formatRS, toNat_append_eq_add, toNat_regBits, BitVec.toNat_ofNat]
  omega

theorem toNat_formatJ (op : BitVec 4) (n : Int) :
    (formatJ op n).toNat = op.toNat * 4096 + (n % 256).toNat := by
  simp only [formatJ, toNat_append_eq_add, BitVec.toNat_ofInt, BitVec.toNat_ofNat]
  omega

theorem toNat_formatI (op : BitVec 4) (n : Int) :
    (formatI op n).toNat = op.toNat * 4096 + (n % 4096).toNat := by
  simp only [formatI, toNat_append_eq_add, BitVec.toNat_ofInt]
  omega

theorem toNat_formatN (op : BitVec 4) : (formatN op).toNat = op.toNat * 4096 := by
  simp only [formatN, toNat_append_eq_add, BitVec.toNat_ofNat]
  omega

/-- The register field in integer arithmetic (R71). -/
theorem regField_eq (lo : Nat) (w : Word) : regField lo w = Fin.ofNat 8 (w.toNat / 2 ^ lo) := by
  apply Fin.ext
  simp [regField, Nat.shiftRight_eq_div_pow]

/-- The opcode in integer arithmetic (R62). -/
theorem opcodeField_val (w : Word) : (opcodeField w).val = w.toNat / 4096 := by
  simp only [opcodeField, BitVec.val_toFin, BitVec.extractLsb'_toNat, Nat.shiftRight_eq_div_pow]
  omega

/-- `sval` of the eight low bits (R72). -/
theorem imm8Field_eq (w : Word) : imm8Field w =
    (if w.toNat % 256 < 128 then (w.toNat % 256 : Nat) else (w.toNat % 256 : Nat) - 256 : Int) := by
  simp only [imm8Field, BitVec.toInt_eq_toNat_cond, BitVec.extractLsb'_toNat, Nat.shiftRight_zero]
  omega

/-- `sval` of the twelve low bits (R72). -/
theorem imm12Field_eq (w : Word) : imm12Field w =
    (if w.toNat % 4096 < 2048 then (w.toNat % 4096 : Nat) else (w.toNat % 4096 : Nat) - 4096 : Int) := by
  simp only [imm12Field, BitVec.toInt_eq_toNat_cond, BitVec.extractLsb'_toNat, Nat.shiftRight_zero]
  omega

/-- Settles O2, format by format: the table's number is the opcode at weight 4096 plus the fields at theirs. -/
theorem canonicalWordOfEveryInstruction : Obligations.CanonicalWordOfEveryInstruction := by
  intro i _
  cases i with
  | add | sub | and | or | xor => simp [encode, opcodeOf, toNat_formatR3]
  | not | shl | shr | load => simp [encode, opcodeOf, toNat_formatR2]
  | cmp | store => simp [encode, opcodeOf, toNat_formatRS]
  | jump | jz | jnz => simp [encode, opcodeOf, toNat_formatJ]
  | loadi => simp [encode, opcodeOf, toNat_formatI]
  | nop => simp [encode, opcodeOf, toNat_formatN]

/-- Settles O3: every field of the word is its integer arithmetic, then one case per opcode. -/
theorem decodeOfEveryWord : Obligations.DecodeOfEveryWord := by
  intro w v rd rs1 rs2 imm8 imm12
  have hrd : regField 9 w = rd := regField_eq 9 w
  have hrs1 : regField 6 w = rs1 := regField_eq 6 w
  have hrs2 : regField 3 w = rs2 := regField_eq 3 w
  have himm8 : imm8Field w = imm8 := imm8Field_eq w
  have himm12 : imm12Field w = imm12 := imm12Field_eq w
  have hop : v / 4096 = (opcodeField w).val := (opcodeField_val w).symm
  simp only [decode, hrd, hrs1, hrs2, himm8, himm12, hop]
  generalize opcodeField w = op
  fin_cases op <;> rfl

end Sys2Proof
end

section
/-! The instruction cycle (40_cycle.md): Execute has two outcomes, and the Step passes them on. -/

namespace Sys2Proof.Machine

/-- The two outcomes of R106: a next state, or a segment violation. -/
def NextOrViolation (r : Result) : Prop :=
  (∃ t : State, r = .next t) ∨ ∃ k : Cause, r = .fault (.segmentViolation k)

theorem NextOrViolation.next (t : State) : NextOrViolation (.next t) := .inl ⟨t, rfl⟩

theorem NextOrViolation.raiseViolation (k : Cause) : NextOrViolation (raiseViolation k) := .inr ⟨k, rfl⟩

/-- A jump passes its test or violates (R150). -/
theorem jumpTo_nextOrViolation (n : Int) (s : State) : NextOrViolation (jumpTo n s) := by
  rw [jumpTo_eq]
  split
  · exact .next _
  · exact .raiseViolation .jumpTarget

/-- Execute has no outcome but the two of R106: no instruction is refused, and none raises the assembler's error. -/
theorem exec_nextOrViolation (i : Instr) (s : State) : NextOrViolation (exec i s) := by
  cases i with
  | add | sub | and | or | xor | not | shl | shr | cmp | loadi | nop => exact .next _
  | load rd rs1 =>
    simp only [exec, execLoad]
    split
    · exact .next _
    · exact .raiseViolation .loadAddress
  | store rs1 rs2 =>
    simp only [exec, execStore]
    split
    · exact .next _
    · exact .raiseViolation .storeAddress
  | jump n => exact jumpTo_nextOrViolation n s
  | jz n =>
    simp only [exec, execJz]
    split
    · exact jumpTo_nextOrViolation n s
    · exact .next _
  | jnz n =>
    simp only [exec, execJnz]
    split
    · exact jumpTo_nextOrViolation n s
    · exact .next _

/-- The host finds the state as it was after a Step that raised (R107). -/
theorem apply_step_of_fault {s : State} {e : Fault} (h : step s = .fault e) : HostOp.apply .step s = s := by
  rw [HostOp.apply, HostOp.answer, h, stateAfter_fault]

/-- Under the invariant `IR` of a loaded state holds the word in memory at `PC` (R20, R51). -/
theorem State.Inv.ir_eq_read {s : State} (hinv : s.Inv) (hl : s.loaded = true) : s.ir = s.mem.read s.pc := by
  obtain ⟨-, hloaded⟩ := hinv
  exact (hloaded hl).2

/-- Settles O33: an allowed Step has the outcome of Execute, which is one of the two. -/
theorem stepIsOkOrViolation : Obligations.StepIsOkOrViolation := by
  intro s hmay
  rcases exec_nextOrViolation (decode s.ir) s with ⟨u, hu⟩ | ⟨k, hk⟩
  · exact .inl ⟨u.fetch, step_eq_next.mpr ⟨hmay, u, hu, rfl⟩⟩
  · exact .inr ⟨k, step_eq_fault.mpr ⟨hmay, hk⟩⟩

/-- Settles O31: the two inversion lemmas of the Step, read from Execute to the Step, and the invariant at `IR`. -/
theorem stepRunsDecodedInstruction : Obligations.StepRunsDecodedInstruction := by
  intro s hmay
  refine ⟨fun t ht => step_eq_next.mpr ⟨hmay, t, ht, rfl⟩, fun k hk => ?_, fun hinv => ?_⟩
  · have hstep : step s = .fault (.segmentViolation k) := step_eq_fault.mpr ⟨hmay, hk⟩
    exact ⟨hstep, apply_step_of_fault hstep⟩
  · rw [← hinv.ir_eq_read hmay.1]

end Sys2Proof.Machine
end

section
/-! Arithmetic (41_arithmetic.md): the fields of a word given by its number, the flags of an exact result, and the
frame that ADD, SUB and CMP share. -/

namespace Sys2Proof

/-- The word whose number is an opcode and three register indices at their weights (R62, R71): the canonical word of an
instruction without an immediate, with index 0 for a register that its format lacks (R63 to R65). -/
def fieldWord (op : Fin 16) (rd rs1 rs2 : RegIdx) : Word :=
  BitVec.ofNat 16 (op.val * 4096 + rd.val * 512 + rs1.val * 64 + rs2.val * 8)

theorem toNat_fieldWord (op : Fin 16) (rd rs1 rs2 : RegIdx) :
    (fieldWord op rd rs1 rs2).toNat = op.val * 4096 + rd.val * 512 + rs1.val * 64 + rs2.val * 8 := by
  rw [fieldWord, BitVec.toNat_ofNat]
  omega

@[simp] theorem opcodeField_fieldWord (op : Fin 16) (rd rs1 rs2 : RegIdx) :
    opcodeField (fieldWord op rd rs1 rs2) = op := by
  rw [Fin.ext_iff, opcodeField_val, toNat_fieldWord]
  omega

/-- The three register fields of `fieldWord` are the indices it was built from. -/
theorem regField_fieldWord (op : Fin 16) (rd rs1 rs2 : RegIdx) :
    regField 9 (fieldWord op rd rs1 rs2) = rd ∧ regField 6 (fieldWord op rd rs1 rs2) = rs1 ∧
      regField 3 (fieldWord op rd rs1 rs2) = rs2 := by
  simp only [Fin.ext_iff, regField_eq, Fin.val_ofNat, toNat_fieldWord]
  omega

theorem decode_fieldWord_add (rd rs1 rs2 : RegIdx) : decode (fieldWord 0 rd rs1 rs2) = .add rd rs1 rs2 := by
  simp [decode, regField_fieldWord]

theorem decode_fieldWord_sub (rd rs1 rs2 : RegIdx) : decode (fieldWord 1 rd rs1 rs2) = .sub rd rs1 rs2 := by
  simp [decode, regField_fieldWord]

theorem decode_fieldWord_cmp (rs1 rs2 : RegIdx) : decode (fieldWord 9 0 rs1 rs2) = .cmp rs1 rs2 := by
  simp [decode, regField_fieldWord]

end Sys2Proof

namespace Sys2Proof.Machine

/-! ## The result row of an exact result (R123) -/

/-- What a checked write stores and the flags of the same result are a row of the clamp table. -/
theorem arithTable_checked_arithFlags (r : Int) : ArithTable r (checked r) (arithFlags r) := by
  refine ⟨fun h => ?_, fun h => ?_, fun h0 h1 => ?_⟩
  · exact ⟨checked_high h, arithFlags_high h⟩
  · exact ⟨checked_low h, arithFlags_low h⟩
  · have hp : ((BitVec.ofInt 16 r).toNat : Int) = r := by
      rw [BitVec.toNat_ofInt]
      omega
    rw [checked_ok h0 h1, arithFlags_ok h0 h1]
    exact ⟨hp, rfl, rfl, decide_eq_true_iff, rfl⟩

/-- The three outcomes of a checked write (R14). -/
theorem clamp_cases (r : Int) : 32767 < r ∨ r < 0 ∨ (0 ≤ r ∧ r ≤ 32767) := by omega

theorem arithFlags_zero_iff (r : Int) : (arithFlags r).zero = true ↔ r = 0 := by
  rcases clamp_cases r with h | h | ⟨h0, h1⟩
  · simp [arithFlags_high h, show r ≠ 0 by omega]
  · simp [arithFlags_low h, h.ne]
  · simp [arithFlags_ok h0 h1]

theorem arithFlags_sign_iff (r : Int) : (arithFlags r).sign = true ↔ r < 0 := by
  rcases clamp_cases r with h | h | ⟨h0, h1⟩
  · simp [arithFlags_high h, show 0 ≤ r by omega]
  · simp [arithFlags_low h, h]
  · simp [arithFlags_ok h0 h1, h0]

/-- `ovf` and `carry` without `sign` mark the clamp at the top. -/
theorem arithFlags_high_iff (r : Int) :
    (arithFlags r).ovf = true ∧ (arithFlags r).carry = true ∧ (arithFlags r).sign = false ↔ 32767 < r := by
  rcases clamp_cases r with h | h | ⟨h0, h1⟩
  · simp [arithFlags_high h, h]
  · simp [arithFlags_low h, show r ≤ 32767 by omega]
  · simp [arithFlags_ok h0 h1, h1]

/-! ## Frames -/

/-- An instruction that ends in `advance` and does not touch `PC` before adds one to it (R18). -/
theorem pcPlusOne_advance {s u : State} (h : u.pc = s.pc) : PcPlusOne s u.advance := fun hlt => by
  rw [State.advance_pc, h, nextPc_toNat hlt]

/-- What a checked write of `r` to `x[rd]` followed by the flags of `r` and `PC + 1` leaves: the row of the clamp table
for `r`, and the frame (R123). -/
theorem finishArith_setReg_checked (rd : RegIdx) (r : Int) (s : State) :
    ∃ t : State, finishArith r (s.setReg rd (checked r)) = .next t ∧ ArithTable r (t.reg rd) t.f ∧
      SameRegsBut rd s t ∧ SameMem s t ∧ SameControl s t ∧ PcPlusOne s t := by
  refine ⟨_, rfl, ?_, fun r' hne => ?_, fun _ => rfl, ⟨rfl, rfl, rfl⟩, pcPlusOne_advance rfl⟩
  · simpa using arithTable_checked_arithFlags r
  · simp [hne]

/-- Settles O8: ADD is the checked write and the flags of the exact sum. -/
theorem addWritesClampedSum : Obligations.AddWritesClampedSum := fun rd rs1 rs2 s =>
  ⟨decode_fieldWord_add rd rs1 rs2, finishArith_setReg_checked rd (s.sreg rs1 + s.sreg rs2) s⟩

/-- Settles O9: SUB is the checked write and the flags of the exact difference. -/
theorem subWritesClampedDifference : Obligations.SubWritesClampedDifference := fun rd rs1 rs2 s =>
  ⟨decode_fieldWord_sub rd rs1 rs2, finishArith_setReg_checked rd (s.sreg rs1 - s.sreg rs2) s⟩

/-- Settles O10: CMP leaves the flags of the exact difference, whose zero is equality and whose sign is less. -/
theorem cmpSetsFlagsOfDifference : Obligations.CmpSetsFlagsOfDifference := by
  intro rs1 rs2 s
  have hzero := arithFlags_zero_iff ((s.reg rs1).toInt - (s.reg rs2).toInt)
  have hsign := arithFlags_sign_iff ((s.reg rs1).toInt - (s.reg rs2).toInt)
  exact ⟨decode_fieldWord_cmp rs1 rs2, _, rfl, ⟨_, arithTable_checked_arithFlags _⟩, hzero.trans sub_eq_zero,
    hsign.trans sub_neg, arithFlags_high_iff _, fun _ => rfl, fun _ => rfl, ⟨rfl, rfl, rfl⟩,
    pcPlusOne_advance rfl⟩

end Sys2Proof.Machine
end

section
/-! Logic (42_logic_shift.md): the flags of a written pattern, and the frame that the raw writes of bits share. -/

namespace Sys2Proof

theorem decode_fieldWord_and (rd rs1 rs2 : RegIdx) : decode (fieldWord 2 rd rs1 rs2) = .and rd rs1 rs2 := by
  simp [decode, regField_fieldWord]

theorem decode_fieldWord_or (rd rs1 rs2 : RegIdx) : decode (fieldWord 3 rd rs1 rs2) = .or rd rs1 rs2 := by
  simp [decode, regField_fieldWord]

theorem decode_fieldWord_xor (rd rs1 rs2 : RegIdx) : decode (fieldWord 4 rd rs1 rs2) = .xor rd rs1 rs2 := by
  simp [decode, regField_fieldWord]

theorem decode_fieldWord_not (rd rs1 : RegIdx) : decode (fieldWord 5 rd rs1 0) = .not rd rs1 := by
  simp [decode, regField_fieldWord]

end Sys2Proof

namespace Sys2Proof.Machine

/-- `zero` and `sign` of a pattern are those of R130. -/
theorem bitTable_bitFlags (f : Flags) (p : Word) : BitTable p (bitFlags f p) :=
  ⟨beq_iff_eq, BitVec.msb_eq_getLsbD_last p⟩

/-- AND's extra write leaves the flags R130 speaks of alone (R131). -/
theorem bitTable_clearOvfCarry {p : Word} {f : Flags} : BitTable p (clearOvfCarry f) ↔ BitTable p f := Iff.rfl

/-- What a raw write of `p` to `x[rd]` followed by the flags `f` and `PC + 1` leaves: `p`, `f`, and the frame. -/
theorem finishBits_eq_next (rd : RegIdx) (p : Word) (f : Flags) (s : State) :
    ∃ t : State, finishBits rd p f s = .next t ∧ t.reg rd = p ∧ t.f = f ∧
      SameRegsBut rd s t ∧ SameMem s t ∧ SameControl s t ∧ PcPlusOne s t := by
  refine ⟨_, rfl, ?_, rfl, fun r' hne => ?_, fun _ => rfl, ⟨rfl, rfl, rfl⟩, pcPlusOne_advance rfl⟩
  · simp
  · simp [hne]

/-- The raw write with the flags of R130: `zero` and `sign` are those of the pattern, `ovf` and `carry` are kept. -/
theorem finishBits_bitFlags (rd : RegIdx) (p : Word) (s : State) :
    ∃ t : State, finishBits rd p (bitFlags s.f p) s = .next t ∧
      t.reg rd = p ∧ BitTable (t.reg rd) t.f ∧ SameOvfCarry s t ∧
      SameRegsBut rd s t ∧ SameMem s t ∧ SameControl s t ∧ PcPlusOne s t := by
  obtain ⟨t, hnext, hreg, hflags, hframe⟩ := finishBits_eq_next rd p (bitFlags s.f p) s
  have htable : BitTable (t.reg rd) t.f := by
    rw [hreg, hflags]
    exact bitTable_bitFlags s.f p
  have hkept : SameOvfCarry s t := by
    rw [SameOvfCarry, hflags]
    exact ⟨rfl, rfl⟩
  exact ⟨t, hnext, hreg, htable, hkept, hframe⟩

/-- Settles O12: the raw write of the conjunction, with the flags of R130 and then `ovf` and `carry` cleared. -/
theorem andWritesConjunctionAndClearsOvfCarry : Obligations.AndWritesConjunctionAndClearsOvfCarry := by
  intro rd rs1 rs2 s
  let p := s.reg rs1 &&& s.reg rs2
  obtain ⟨t, hnext, hreg, hflags, hframe⟩ := finishBits_eq_next rd p (clearOvfCarry (bitFlags s.f p)) s
  have htable : BitTable (t.reg rd) t.f := by
    rw [hreg, hflags]
    exact bitTable_clearOvfCarry.mpr (bitTable_bitFlags s.f p)
  have hovf : t.f.ovf = false := congrArg Flags.ovf hflags
  have hcarry : t.f.carry = false := congrArg Flags.carry hflags
  exact ⟨decode_fieldWord_and rd rs1 rs2, t, hnext, hreg, htable, hovf, hcarry, hframe⟩

/-- Settles O13: the raw write of the disjunction, with the flags of R130. -/
theorem orWritesDisjunctionAndKeepsOvfCarry : Obligations.OrWritesDisjunctionAndKeepsOvfCarry :=
  fun rd rs1 rs2 s => ⟨decode_fieldWord_or rd rs1 rs2, finishBits_bitFlags rd (s.reg rs1 ||| s.reg rs2) s⟩

/-- Settles O14: the raw write of the exclusive or, with the flags of R130. -/
theorem xorWritesDifferenceBitsAndKeepsOvfCarry : Obligations.XorWritesDifferenceBitsAndKeepsOvfCarry :=
  fun rd rs1 rs2 s => ⟨decode_fieldWord_xor rd rs1 rs2, finishBits_bitFlags rd (s.reg rs1 ^^^ s.reg rs2) s⟩

/-- Settles O15: the raw write of the complement, with the flags of R130. -/
theorem notWritesComplementAndKeepsOvfCarry : Obligations.NotWritesComplementAndKeepsOvfCarry :=
  fun rd rs1 s => ⟨decode_fieldWord_not rd rs1, finishBits_bitFlags rd (~~~ s.reg rs1) s⟩

end Sys2Proof.Machine
end

section
/-! Memory access (43_load_store.md): the one addressing mode in the terms of the data segment, the checked write of a
cell's value, and what LOAD and STORE do at an address and outside the segment. -/

namespace Sys2Proof

theorem decode_fieldWord_load (rd rs1 : RegIdx) : decode (fieldWord 8 rd rs1 0) = .load rd rs1 := by
  simp [decode, regField_fieldWord]

theorem decode_fieldWord_store (rs1 rs2 : RegIdx) : decode (fieldWord 10 0 rs1 rs2) = .store rs1 rs2 := by
  simp [decode, regField_fieldWord]

end Sys2Proof

namespace Sys2Proof.Machine

/-- A register whose number is that of a data cell addresses this cell (R140). -/
theorem dataAddr_of_inData {s : State} {rs : RegIdx} {a : Addr} (ha : (s.reg rs).toInt = (a.toNat : Int))
    (hin : InData s (s.reg rs).toInt) : dataAddr s rs = some a := by
  obtain ⟨hds, htop⟩ := hin
  exact dataAddr_eq_some.mpr ⟨hds, htop, ha.symm⟩

/-- A register whose number lies outside the data segment addresses nothing (R140). -/
theorem dataAddr_of_not_inData {s : State} {rs : RegIdx} (hout : ¬ InData s (s.reg rs).toInt) :
    dataAddr s rs = none :=
  dataAddr_eq_none.mpr hout

/-- The checked write of a word's own number clamps the negative ones and copies the others (R14, R141); no word is
above the upper bound. -/
theorem checked_sval (p : Word) : checked (sval p) = if p.toInt < 0 then 0x8000#16 else p := by
  have htop : p.toInt ≤ 32767 := Int.le_of_lt_add_one (BitVec.toInt_lt (x := p))
  split
  · next hneg => exact checked_low hneg
  · next hnonneg =>
    calc checked (sval p) = BitVec.ofInt 16 p.toInt := checked_ok (Int.not_lt.mp hnonneg) htop
      _ = p := BitVec.ofInt_toInt

/-! ## What LOAD and STORE do, by what their register addresses -/

theorem exec_load_of_some {s : State} {rd rs1 : RegIdx} {a : Addr} (h : dataAddr s rs1 = some a) :
    exec (.load rd rs1) s = .next (s.setReg rd (checked (sval (s.mem.read a)))).advance := by
  simp only [exec, execLoad, h]

theorem exec_load_of_none {s : State} {rd rs1 : RegIdx} (h : dataAddr s rs1 = none) :
    exec (.load rd rs1) s = .fault (.segmentViolation .loadAddress) := by
  simp only [exec, execLoad, h, raiseViolation]

theorem exec_store_of_some {s : State} {rs1 rs2 : RegIdx} {a : Addr} (h : dataAddr s rs1 = some a) :
    exec (.store rs1 rs2) s = .next (s.writeMem a (s.reg rs2)).advance := by
  simp only [exec, execStore, h]

theorem exec_store_of_none {s : State} {rs1 rs2 : RegIdx} (h : dataAddr s rs1 = none) :
    exec (.store rs1 rs2) s = .fault (.segmentViolation .storeAddress) := by
  simp only [exec, execStore, h, raiseViolation]

/-- Settles O18: at a data address LOAD is the checked write of the cell's number, elsewhere the violation. -/
theorem loadReadsDataSegmentChecked : Obligations.LoadReadsDataSegmentChecked := by
  intro rd rs1 s
  refine ⟨decode_fieldWord_load rd rs1, fun a ha hin => ?_, fun hout => ?_⟩
  · have hexec := exec_load_of_some (rd := rd) (dataAddr_of_inData ha hin)
    refine ⟨_, hexec, ?_, rfl, fun r hne => ?_, fun _ => rfl, ⟨rfl, rfl, rfl⟩, pcPlusOne_advance rfl⟩
    · simp [checked_sval]
    · simp [hne]
  · exact exec_load_of_none (dataAddr_of_not_inData hout)

/-- Settles O19: at a data address STORE is the write of that one cell, elsewhere the violation; a Fetch from the cell
reads the memory that was written. -/
theorem storeWritesDataSegmentRaw : Obligations.StoreWritesDataSegmentRaw := by
  intro rs1 rs2 s
  refine ⟨decode_fieldWord_store rs1 rs2, fun a ha hin => ?_, fun hout => ?_⟩
  · have hexec := exec_store_of_some (rs2 := rs2) (dataAddr_of_inData ha hin)
    refine ⟨_, hexec, fun hwf => ?_, fun b hne => ?_, rfl, fun _ => rfl, ⟨rfl, rfl, rfl⟩, pcPlusOne_advance rfl⟩
    · have hread : (s.mem.write a (s.reg rs2)).read a = s.reg rs2 := Memory.read_write_same hwf a _
      refine ⟨hread, fun hpc => ?_⟩
      rw [State.fetch_ir, hpc]
      exact hread
    · exact Memory.read_write_other s.mem hne _
  · exact exec_store_of_none (dataAddr_of_not_inData hout)

end Sys2Proof.Machine
end

section
/-! Control transfer (44_control.md): the word of a jump given by its number, the two outcomes of `JumpTo`, and which of
`JumpTo` and `PC + 1` a branch is. -/

namespace Sys2Proof

/-- The word whose number is an opcode and the pattern of an offset at their weights (R66): for the opcodes 11, 12 and
13 the canonical word of JUMP, JZ and JNZ. -/
def offsetWord (op : Fin 16) (n : Int) : Word := BitVec.ofNat 16 (op.val * 4096 + (n % 256).toNat)

theorem toNat_offsetWord (op : Fin 16) (n : Int) :
    (offsetWord op n).toNat = op.val * 4096 + (n % 256).toNat := by
  rw [offsetWord, BitVec.toNat_ofNat]
  omega

@[simp] theorem opcodeField_offsetWord (op : Fin 16) (n : Int) : opcodeField (offsetWord op n) = op := by
  rw [Fin.ext_iff, opcodeField_val, toNat_offsetWord]
  omega

/-- The immediate field of `offsetWord` is the offset it was built from, when the field can hold it (R72). -/
theorem imm8Field_offsetWord (op : Fin 16) {n : Int} (hlo : -128 ≤ n) (hhi : n ≤ 127) :
    imm8Field (offsetWord op n) = n := by
  rw [imm8Field_eq, toNat_offsetWord]
  omega

theorem decode_offsetWord_jump {n : Int} (hlo : -128 ≤ n) (hhi : n ≤ 127) : decode (offsetWord 11 n) = .jump n := by
  simp [decode, imm8Field_offsetWord 11 hlo hhi]

theorem decode_offsetWord_jz {n : Int} (hlo : -128 ≤ n) (hhi : n ≤ 127) : decode (offsetWord 12 n) = .jz n := by
  simp [decode, imm8Field_offsetWord 12 hlo hhi]

theorem decode_offsetWord_jnz {n : Int} (hlo : -128 ≤ n) (hhi : n ≤ 127) : decode (offsetWord 13 n) = .jnz n := by
  simp [decode, imm8Field_offsetWord 13 hlo hhi]

end Sys2Proof

namespace Sys2Proof.Machine

/-! ## The two outcomes of `JumpTo` (R150), and the branch that is not taken -/

/-- A target in the code segment is reached exactly, and nothing but `PC` is written. -/
theorem jumpTo_of_inCode {n : Int} {s : State} (hin : InCode s ((s.pc.toNat : Int) + n)) :
    ∃ t : State, jumpTo n s = .next t ∧ (t.pc.toNat : Int) = (s.pc.toNat : Int) + n ∧ t.f = s.f ∧
      SameRegs s t ∧ SameMem s t ∧ SameControl s t := by
  have hnext := (jumpTo_eq n s).trans (if_pos hin)
  obtain ⟨hlo, hhi⟩ := hin
  exact ⟨_, hnext, toNat_jumpTarget hlo hhi, rfl, fun _ => rfl, fun _ => rfl, ⟨rfl, rfl, rfl⟩⟩

/-- Any other target raises the violation. -/
theorem jumpTo_of_not_inCode {n : Int} {s : State} (hout : ¬ InCode s ((s.pc.toNat : Int) + n)) :
    jumpTo n s = .fault (.segmentViolation .jumpTarget) :=
  (jumpTo_eq n s).trans (if_neg hout)

/-- `PC + 1` writes nothing but `PC` (R18). -/
theorem advance_frame (s : State) :
    PcPlusOne s s.advance ∧ s.advance.f = s.f ∧
      SameRegs s s.advance ∧ SameMem s s.advance ∧ SameControl s s.advance :=
  ⟨pcPlusOne_advance rfl, rfl, fun _ => rfl, fun _ => rfl, ⟨rfl, rfl, rfl⟩⟩

/-! ## What the branches do, by `zero` (R152, R153) -/

theorem exec_jz_of_zero (n : Int) {s : State} (h : s.f.zero = true) : exec (.jz n) s = jumpTo n s :=
  if_pos h

theorem exec_jz_of_not_zero (n : Int) {s : State} (h : s.f.zero = false) : exec (.jz n) s = .next s.advance :=
  if_neg (Bool.eq_false_iff.mp h)

theorem exec_jnz_of_not_zero (n : Int) {s : State} (h : s.f.zero = false) : exec (.jnz n) s = jumpTo n s :=
  if_pos h

theorem exec_jnz_of_zero (n : Int) {s : State} (h : s.f.zero = true) : exec (.jnz n) s = .next s.advance :=
  if_neg (Bool.ne_false_iff.mpr h)

/-- Settles O21: JUMP is `JumpTo`. -/
theorem jumpGoesToTestedTarget : Obligations.JumpGoesToTestedTarget := fun _ _ =>
  ⟨decode_offsetWord_jump, jumpTo_of_inCode, jumpTo_of_not_inCode⟩

/-- Settles O22: with `zero` set JZ is `JumpTo`, and with `zero` clear it is `PC + 1`. -/
theorem jzJumpsOnZero : Obligations.JzJumpsOnZero := by
  intro n s
  refine ⟨decode_offsetWord_jz, fun hzero hin => ?_, fun hzero hout => ?_, fun hzero => ?_⟩
  · rw [exec_jz_of_zero n hzero]
    exact jumpTo_of_inCode hin
  · rw [exec_jz_of_zero n hzero]
    exact jumpTo_of_not_inCode hout
  · exact ⟨s.advance, exec_jz_of_not_zero n hzero, advance_frame s⟩

/-- Settles O23: with `zero` clear JNZ is `JumpTo`, and with `zero` set it is `PC + 1`. -/
theorem jnzJumpsOnNonzero : Obligations.JnzJumpsOnNonzero := by
  intro n s
  refine ⟨decode_offsetWord_jnz, fun hzero hin => ?_, fun hzero hout => ?_, fun hzero => ?_⟩
  · rw [exec_jnz_of_not_zero n hzero]
    exact jumpTo_of_inCode hin
  · rw [exec_jnz_of_not_zero n hzero]
    exact jumpTo_of_not_inCode hout
  · exact ⟨s.advance, exec_jnz_of_zero n hzero, advance_frame s⟩

end Sys2Proof.Machine
end

section
/-! NOP (45_misc.md): the opcode alone selects it, and its Execute is `PC + 1`. -/

namespace Sys2Proof

/-- Opcode 15 selects NOP whatever the twelve low bits hold (R62, R74). -/
theorem decode_eq_nop_of_opcodeField {w : Word} (h : opcodeField w = 15) : decode w = .nop := by
  simp only [decode, h]

/-- A twelve-bit number at the place of NOP's unused bits leaves the opcode 15. -/
theorem opcodeField_nop_add {k : Nat} (hk : k < 4096) : opcodeField (BitVec.ofNat 16 (0xF000 + k)) = 15 := by
  rw [Fin.ext_iff, opcodeField_val, BitVec.toNat_ofNat]
  omega

end Sys2Proof

namespace Sys2Proof.Machine

theorem exec_nop (s : State) : exec .nop s = .next s.advance := rfl

/-- Settles O26: the unused bits lie below the opcode, and Execute is `PC + 1`, which writes nothing but `PC`. -/
theorem nopOnlyAdvances : Obligations.NopOnlyAdvances := by
  intro s
  obtain ⟨hpc, hflags, hregs, hmem, hcontrol⟩ := advance_frame s
  exact ⟨fun _ hk => decode_eq_nop_of_opcodeField (opcodeField_nop_add hk),
    s.advance, exec_nop s, hflags, hregs, hmem, hcontrol, hpc⟩

end Sys2Proof.Machine
end

section
/-! Errors (60_exceptions.md): the whole assembly in the terms of its lines, and what Load makes of it. -/

namespace Sys2Proof.Machine

/-! ## The assembly of a line, and of a program -/

@[simp] theorem assemble_nil : assemble [] = some [] := rfl

/-- A program assembles exactly when its first line and the rest do (R177). -/
theorem assemble_cons_eq_some {l : Line} {ls : List Line} {ws : List Word} :
    assemble (l :: ls) = some ws ↔
      ∃ w ws', assembleLine l = some w ∧ assemble ls = some ws' ∧ ws = w :: ws' := by
  rw [assemble]
  cases assembleLine l <;> cases assemble ls <;> simp [eq_comm]

/-- The words of a program are those of its lines, one a line and in order (R80). -/
theorem assemble_eq_some_iff {lines : List Line} {ws : List Word} :
    assemble lines = some ws ↔ lines.map assembleLine = ws.map some := by
  induction lines generalizing ws with
  | nil => cases ws <;> simp
  | cons l ls ih => cases ws <;> simp [assemble_cons_eq_some, ih]

/-- One bad line fails the whole assembly (R177): in an assembly that succeeds every line has its word. -/
theorem assemble_eq_none_of_bad_line {lines : List Line} {l : Line} (hmem : l ∈ lines)
    (hbad : assembleLine l = none) : assemble lines = none := by
  rw [Option.eq_none_iff_forall_ne_some]
  intro ws hws
  have hline : assembleLine l ∈ ws.map some := assemble_eq_some_iff.mp hws ▸ List.mem_map_of_mem hmem
  simp [hbad] at hline

theorem assembleLine_of_parse {l : Line} {ts : List Token} {i : Instr} (htok : tokenize l = some ts)
    (hparse : parseTokens ts = some i) : assembleLine l = assembleInstr i := by
  simp only [assembleLine, htok, hparse]

/-- A literal out of its field's range has no word (R84). -/
theorem assembleInstr_of_not_wellFormed {i : Instr} (h : wellFormed i = false) : assembleInstr i = none :=
  if_neg (Bool.eq_false_iff.mp h)

/-! ## Load of program text (R191, R177) -/

theorem load_of_assemble_some {lines : List Line} {ws : List Word} (h : assemble lines = some ws) (s : State) :
    load lines s = loadImage ws s := by
  rw [load, h]

theorem load_of_assemble_none {lines : List Line} (h : assemble lines = none) (s : State) :
    load lines s = .fault .assemblyFailure := by
  rw [load, h]

/-- The host finds the state as it was after a Load that failed (R177). -/
theorem apply_load_of_fault {lines : List Line} {s : State} {e : Fault} (h : load lines s = .fault e) :
    HostOp.apply (.load lines) s = s := by
  rw [HostOp.apply, HostOp.answer, h, stateAfter_fault]

/-- The assembly failure is never the outcome of a Step (R170): a Step that faults raises what Execute raises. -/
theorem step_ne_assemblyFailure (s : State) : step s ≠ .fault .assemblyFailure := by
  intro hstep
  obtain ⟨-, hexec⟩ := step_eq_fault.mp hstep
  rcases exec_nextOrViolation (decode s.ir) s with ⟨t, ht⟩ | ⟨k, hk⟩
  · cases ht.symm.trans hexec
  · cases hk.symm.trans hexec

/-- Settles O42: Load does what the assembly of its lines says, and the assembly is that of every line. -/
theorem failedLoadChangesNothing : Obligations.FailedLoadChangesNothing := by
  refine ⟨?_, ?_, ?_, step_ne_assemblyFailure⟩
  · rintro lines s ⟨l, hmem, hbad⟩
    have hfail := load_of_assemble_none (assemble_eq_none_of_bad_line hmem hbad) s
    exact ⟨hfail, apply_load_of_fault hfail⟩
  · intro lines ws s hwords
    exact load_of_assemble_some (assemble_eq_some_iff.mpr hwords) s
  · intro l ts i htok hparse hrange
    rw [assembleLine_of_parse htok hparse, assembleInstr_of_not_wellFormed hrange]

end Sys2Proof.Machine
end

section
/-! Encoding (30_encoding.md): every canonical word is the word of its fields, so Decode gives the instruction back; and
encoding what a word decodes to clears the bits its format leaves unused. -/

namespace Sys2Proof

/-! ## The words of the formats, by their fields (R63 to R68) -/

theorem formatR3_eq_fieldWord (op : Fin 16) (rd rs1 rs2 : RegIdx) :
    formatR3 (BitVec.ofFin op) rd rs1 rs2 = fieldWord op rd rs1 rs2 :=
  BitVec.eq_of_toNat_eq (by rw [toNat_formatR3, toNat_fieldWord, BitVec.toNat_ofFin])

theorem formatR2_eq_fieldWord (op : Fin 16) (rd rs1 : RegIdx) :
    formatR2 (BitVec.ofFin op) rd rs1 = fieldWord op rd rs1 0 :=
  BitVec.eq_of_toNat_eq (by simp [toNat_formatR2, toNat_fieldWord])

theorem formatRS_eq_fieldWord (op : Fin 16) (rs1 rs2 : RegIdx) :
    formatRS (BitVec.ofFin op) rs1 rs2 = fieldWord op 0 rs1 rs2 :=
  BitVec.eq_of_toNat_eq (by simp [toNat_formatRS, toNat_fieldWord])

theorem formatJ_eq_offsetWord (op : Fin 16) (n : Int) : formatJ (BitVec.ofFin op) n = offsetWord op n :=
  BitVec.eq_of_toNat_eq (by rw [toNat_formatJ, toNat_offsetWord, BitVec.toNat_ofFin])

/-- The word whose number is LOADI's opcode and the pattern of its immediate (R67). -/
def loadiWord (n : Int) : Word := BitVec.ofNat 16 (0xE000 + (n % 4096).toNat)

theorem toNat_loadiWord (n : Int) : (loadiWord n).toNat = 0xE000 + (n % 4096).toNat := by
  rw [loadiWord, BitVec.toNat_ofNat]
  omega

theorem formatI_eq_loadiWord (n : Int) : formatI 14#4 n = loadiWord n :=
  BitVec.eq_of_toNat_eq (by rw [toNat_formatI, toNat_loadiWord]; rfl)

/-! ## Decode of the canonical words not met before (R75) -/

theorem decode_fieldWord_shl (rd rs1 : RegIdx) : decode (fieldWord 6 rd rs1 0) = .shl rd rs1 := by
  simp [decode, regField_fieldWord]

theorem decode_fieldWord_shr (rd rs1 : RegIdx) : decode (fieldWord 7 rd rs1 0) = .shr rd rs1 := by
  simp [decode, regField_fieldWord]

theorem opcodeField_loadiWord (n : Int) : opcodeField (loadiWord n) = 14 := by
  rw [Fin.ext_iff, opcodeField_val, toNat_loadiWord]
  omega

/-- The immediate field of `loadiWord` is the immediate it was built from, when the field can hold it (R72). -/
theorem imm12Field_loadiWord {n : Int} (hlo : -2048 ≤ n) (hhi : n ≤ 2047) : imm12Field (loadiWord n) = n := by
  rw [imm12Field_eq, toNat_loadiWord]
  omega

theorem decode_loadiWord {n : Int} (hlo : -2048 ≤ n) (hhi : n ≤ 2047) : decode (loadiWord n) = .loadi n := by
  simp [decode, opcodeField_loadiWord, imm12Field_loadiWord hlo hhi]

@[simp] theorem fitsImm8_iff {n : Int} : fitsImm8 n = true ↔ -128 ≤ n ∧ n ≤ 127 := by
  simp [fitsImm8]

@[simp] theorem fitsImm12_iff {n : Int} : fitsImm12 n = true ↔ -2048 ≤ n ∧ n ≤ 2047 := by
  simp [fitsImm12]

theorem decode_encode_of_eq {i : Instr} {w : Word} (hword : encode i = w) (hdecode : decode w = i) :
    decode (encode i) = i := (congrArg decode hword).trans hdecode

/-- Settles O5: the canonical word is the word of the instruction's opcode and fields, and its fields are read back. -/
theorem decodeOfEncodeIsIdentity : Obligations.DecodeOfEncodeIsIdentity := by
  intro i hwf
  cases i with
  | add => exact decode_encode_of_eq (formatR3_eq_fieldWord ..) (decode_fieldWord_add ..)
  | sub => exact decode_encode_of_eq (formatR3_eq_fieldWord ..) (decode_fieldWord_sub ..)
  | and => exact decode_encode_of_eq (formatR3_eq_fieldWord ..) (decode_fieldWord_and ..)
  | or => exact decode_encode_of_eq (formatR3_eq_fieldWord ..) (decode_fieldWord_or ..)
  | xor => exact decode_encode_of_eq (formatR3_eq_fieldWord ..) (decode_fieldWord_xor ..)
  | not => exact decode_encode_of_eq (formatR2_eq_fieldWord ..) (decode_fieldWord_not ..)
  | shl => exact decode_encode_of_eq (formatR2_eq_fieldWord ..) (decode_fieldWord_shl ..)
  | shr => exact decode_encode_of_eq (formatR2_eq_fieldWord ..) (decode_fieldWord_shr ..)
  | load => exact decode_encode_of_eq (formatR2_eq_fieldWord ..) (decode_fieldWord_load ..)
  | cmp => exact decode_encode_of_eq (formatRS_eq_fieldWord ..) (decode_fieldWord_cmp ..)
  | store => exact decode_encode_of_eq (formatRS_eq_fieldWord ..) (decode_fieldWord_store ..)
  | jump n =>
    obtain ⟨hlo, hhi⟩ := fitsImm8_iff.mp hwf
    exact decode_encode_of_eq (formatJ_eq_offsetWord ..) (decode_offsetWord_jump hlo hhi)
  | jz n =>
    obtain ⟨hlo, hhi⟩ := fitsImm8_iff.mp hwf
    exact decode_encode_of_eq (formatJ_eq_offsetWord ..) (decode_offsetWord_jz hlo hhi)
  | jnz n =>
    obtain ⟨hlo, hhi⟩ := fitsImm8_iff.mp hwf
    exact decode_encode_of_eq (formatJ_eq_offsetWord ..) (decode_offsetWord_jnz hlo hhi)
  | loadi n =>
    obtain ⟨hlo, hhi⟩ := fitsImm12_iff.mp hwf
    exact decode_encode_of_eq (formatI_eq_loadiWord n) (decode_loadiWord hlo hhi)
  | nop => exact decode_eq_nop_of_opcodeField rfl

/-! ## Encoding what a word decodes to -/

theorem regBits_regField (lo : Nat) (w : Word) : regBits (regField lo w) = w.extractLsb' lo 3 :=
  BitVec.eq_of_toNat_eq (toNat_regBits _)

theorem imm8Field_fits (w : Word) : fitsImm8 (imm8Field w) = true := by
  rw [fitsImm8_iff, imm8Field_eq]
  omega

theorem imm12Field_fits (w : Word) : fitsImm12 (imm12Field w) = true := by
  rw [fitsImm12_iff, imm12Field_eq]
  omega

theorem wellFormed_decode (w : Word) : wellFormed (decode w) = true := by
  unfold decode
  split
  case h_12 | h_13 | h_14 => exact imm8Field_fits w
  case h_15 => exact imm12Field_fits w
  case h_17 h _ => exact absurd h (by omega)
  all_goals rfl

/-- The opcode's four bits. -/
theorem extractLsb'_opcode {w : Word} {op : Fin 16} (h : opcodeField w = op) :
    BitVec.ofFin op = w.extractLsb' 12 4 := by
  rw [← h]
  rfl

/-! A format built from a word's own fields is the word with the format's unused bits cleared (R63 to R68, R74). -/

theorem formatR3_fields (w : Word) :
    formatR3 (w.extractLsb' 12 4) (regField 9 w) (regField 6 w) (regField 3 w) = w &&& 0xFFF8#16 := by
  refine BitVec.eq_of_getLsbD_eq fun i hi => ?_
  simp only [formatR3, regBits_regField, BitVec.getLsbD_append, BitVec.getLsbD_and, BitVec.getLsbD_extractLsb']
  interval_cases i <;> simp

theorem formatR2_fields (w : Word) :
    formatR2 (w.extractLsb' 12 4) (regField 9 w) (regField 6 w) = w &&& 0xFFC0#16 := by
  refine BitVec.eq_of_getLsbD_eq fun i hi => ?_
  simp only [formatR2, regBits_regField, BitVec.getLsbD_append, BitVec.getLsbD_and, BitVec.getLsbD_extractLsb']
  interval_cases i <;> simp

theorem formatRS_fields (w : Word) :
    formatRS (w.extractLsb' 12 4) (regField 6 w) (regField 3 w) = w &&& 0xF1F8#16 := by
  refine BitVec.eq_of_getLsbD_eq fun i hi => ?_
  simp only [formatRS, regBits_regField, BitVec.getLsbD_append, BitVec.getLsbD_and, BitVec.getLsbD_extractLsb']
  interval_cases i <;> simp

theorem formatJ_fields (w : Word) :
    formatJ (w.extractLsb' 12 4) (imm8Field w) = w &&& 0xF0FF#16 := by
  refine BitVec.eq_of_getLsbD_eq fun i hi => ?_
  simp only [formatJ, imm8Field, BitVec.ofInt_toInt, BitVec.getLsbD_append, BitVec.getLsbD_and,
    BitVec.getLsbD_extractLsb']
  interval_cases i <;> simp

theorem formatI_fields (w : Word) :
    formatI (w.extractLsb' 12 4) (imm12Field w) = w &&& 0xFFFF#16 := by
  refine BitVec.eq_of_getLsbD_eq fun i hi => ?_
  simp only [formatI, imm12Field, BitVec.ofInt_toInt, BitVec.getLsbD_append, BitVec.getLsbD_and,
    BitVec.getLsbD_extractLsb']
  interval_cases i <;> simp

theorem formatN_fields (w : Word) :
    formatN (w.extractLsb' 12 4) = w &&& 0xF000#16 := by
  refine BitVec.eq_of_getLsbD_eq fun i hi => ?_
  simp only [formatN, BitVec.getLsbD_append, BitVec.getLsbD_and, BitVec.getLsbD_extractLsb']
  interval_cases i <;> simp

/-- Encoding what a word decodes to keeps the word's used bits and clears the others. -/
theorem encode_decode (w : Word) : encode (decode w) = w &&& Machine.usedBits w := by
  unfold decode Machine.usedBits
  rw [← opcodeField_val]
  split
  case h_1 h | h_2 h | h_3 h | h_4 h | h_5 h =>
    rw [h]; exact (congrArg (formatR3 · _ _ _) (extractLsb'_opcode h)).trans (formatR3_fields w)
  case h_6 h | h_7 h | h_8 h | h_9 h =>
    rw [h]; exact (congrArg (formatR2 · _ _) (extractLsb'_opcode h)).trans (formatR2_fields w)
  case h_10 h | h_11 h =>
    rw [h]; exact (congrArg (formatRS · _ _) (extractLsb'_opcode h)).trans (formatRS_fields w)
  case h_12 h | h_13 h | h_14 h =>
    rw [h]; exact (congrArg (formatJ · _) (extractLsb'_opcode h)).trans (formatJ_fields w)
  case h_15 h => rw [h]; exact (congrArg (formatI · _) (extractLsb'_opcode h)).trans (formatI_fields w)
  case h_16 h => rw [h]; exact (congrArg formatN (extractLsb'_opcode h)).trans (formatN_fields w)
  case h_17 h _ => exact absurd h (by omega)

/-- Settles O4: the used bits of a word are the canonical word of what it decodes to, and Decode gives that back. -/
theorem unusedBitsAreIgnored : Obligations.UnusedBitsAreIgnored := by
  refine ⟨wellFormed_decode, fun w v => ⟨fun h => ?_, fun h => ?_⟩⟩
  · rw [← encode_decode w, ← encode_decode v, h]
  · calc decode w = decode (encode (decode w)) := (decodeOfEncodeIsIdentity _ (wellFormed_decode w)).symm
      _ = decode (encode (decode v)) := by rw [encode_decode, encode_decode, h]
      _ = decode v := decodeOfEncodeIsIdentity _ (wellFormed_decode v)

end Sys2Proof
end

section
/-! Assembler (30_encoding.md §5): the tokens of a line, its literals and register names, and its word. -/

namespace Sys2Proof.Machine

/-! ## One literal operand: the range check and the word (R84) -/

theorem parseTokens_literal {m tok : Token} {f : Int → Instr} {n : Int} (hm : mnemonic1 m = some f)
    (hn : parseLiteral tok = some n) : parseTokens [m, tok] = some (f n) := by
  simp only [parseTokens, hm, hn]

theorem assembleInstr_jump (n : Int) :
    assembleInstr (.jump n) = if -128 ≤ n ∧ n ≤ 127 then some (offsetWord 11 n) else none :=
  if_congr fitsImm8_iff (congrArg some (formatJ_eq_offsetWord 11 n)) rfl

theorem assembleInstr_jz (n : Int) :
    assembleInstr (.jz n) = if -128 ≤ n ∧ n ≤ 127 then some (offsetWord 12 n) else none :=
  if_congr fitsImm8_iff (congrArg some (formatJ_eq_offsetWord 12 n)) rfl

theorem assembleInstr_jnz (n : Int) :
    assembleInstr (.jnz n) = if -128 ≤ n ∧ n ≤ 127 then some (offsetWord 13 n) else none :=
  if_congr fitsImm8_iff (congrArg some (formatJ_eq_offsetWord 13 n)) rfl

theorem assembleInstr_loadi (n : Int) :
    assembleInstr (.loadi n) = if -2048 ≤ n ∧ n ≤ 2047 then some (loadiWord n) else none :=
  if_congr fitsImm12_iff (congrArg some (formatI_eq_loadiWord n)) rfl

/-- Settles O7: the line names the instruction of its literal, and this has its word exactly in the field's range. -/
theorem literalsOutOfRangeDoNotAssemble : Obligations.LiteralsOutOfRangeDoNotAssemble := by
  intro tok n hn
  rw [parseTokens_literal rfl hn, parseTokens_literal rfl hn, parseTokens_literal rfl hn, parseTokens_literal rfl hn]
  exact ⟨assembleInstr_jump n, assembleInstr_jz n, assembleInstr_jnz n, assembleInstr_loadi n⟩

/-! ## Decimal literals (R80) -/

theorem digitVal_of_isDigit {c : Char} (h : c.isDigit = true) : digitVal c = some (c.toNat - '0'.toNat) := by
  have hrange : c.val ≥ '0'.val ∧ c.val ≤ '9'.val := by
    simpa only [Char.isDigit, Bool.and_eq_true, decide_eq_true_eq] using h
  exact if_pos hrange

/-- Decimal digits are read most significant first, as the library reads them. -/
theorem parseDigits_of_digits {ds : Token} (h : ∀ c ∈ ds, c.isDigit = true) (acc : Nat) :
    parseDigits acc ds = some (Nat.ofDigitChars 10 ds acc) := by
  induction ds generalizing acc with
  | nil => rfl
  | cons c cs ih =>
    obtain ⟨hc, hcs⟩ := List.forall_mem_cons.mp h
    rw [parseDigits, digitVal_of_isDigit hc, Nat.ofDigitChars_cons, Nat.mul_comm 10]
    exact ih hcs _

theorem isDigit_of_mem_decimalDigits {m : Nat} {c : Char} (h : c ∈ Nat.toDigits 10 m) : c.isDigit = true :=
  Nat.isDigit_of_mem_toDigits (by omega) (by omega) h

theorem parseMagnitude_toDigits (m : Nat) : parseMagnitude (Nat.toDigits 10 m) = some m := by
  have hdigits : parseDigits 0 (Nat.toDigits 10 m) = some m := by
    rw [parseDigits_of_digits fun c => isDigit_of_mem_decimalDigits, Nat.ofDigitChars_ten_toDigits]
  cases hds : Nat.toDigits 10 m with
  | nil => exact absurd hds Nat.toDigits_ne_nil
  | cons c cs => rwa [hds] at hdigits

/-- Without a leading minus a literal is its magnitude. -/
theorem parseLiteral_of_no_minus {ds : Token} (h : '-' ∉ ds) :
    parseLiteral ds = (parseMagnitude ds).map Int.ofNat := by
  unfold parseLiteral
  split
  · simp at h
  · split <;> simp_all

/-- The decimal spelling of a number is read back as the number. -/
theorem parseLiteral_decimal (n : Int) : parseLiteral (decimal n) = some n := by
  unfold decimal
  split
  · next hneg =>
    obtain ⟨m, rfl⟩ := Int.eq_negSucc_of_lt_zero hneg
    simp only [parseLiteral, parseMagnitude_toDigits]
    rfl
  · next hnonneg =>
    have hminus : '-' ∉ Nat.toDigits 10 n.natAbs := fun h => absurd (isDigit_of_mem_decimalDigits h) (by decide)
    rw [parseLiteral_of_no_minus hminus, parseMagnitude_toDigits]
    simp; omega

/-- A register is found by its own name (R10). -/
theorem parseReg_regName (r : RegIdx) : parseReg (regName r) = some r := by
  revert r; decide

/-! ## The tokens of a line (R80) -/

/-- A nonempty piece of text without white space. -/
def IsToken (t : Token) : Prop := t ≠ [] ∧ ∀ c ∈ t, isSpace c = false

theorem pieces_of_no_space {t : Token} (h : ∀ c ∈ t, isSpace c = false) : pieces t = [t] := by
  induction t with
  | nil => rfl
  | cons c cs ih =>
    obtain ⟨hc, hcs⟩ := List.forall_mem_cons.mp h
    simp [pieces, hc, ih hcs]

theorem pieces_append_space {t : Token} (h : ∀ c ∈ t, isSpace c = false) (l : Line) :
    pieces (t ++ ' ' :: l) = t :: pieces l := by
  induction t with
  | nil => rfl
  | cons c cs ih =>
    obtain ⟨hc, hcs⟩ := List.forall_mem_cons.mp h
    simp [pieces, hc, ih hcs]

/-- Tokens with one space between them: the shape of the lines of R83. -/
def spaced (ts : List Token) : Line := [' '].intercalate ts

theorem spaced_cons_cons (t t' : Token) (ts : List Token) : spaced (t :: t' :: ts) = t ++ ' ' :: spaced (t' :: ts) := by
  simp [spaced, List.intercalate_cons_cons]

theorem spaced_singleton (t : Token) : spaced [t] = t := List.intercalate_singleton

theorem pieces_spaced {t : Token} {ts : List Token} (h : ∀ u ∈ t :: ts, IsToken u) :
    pieces (spaced (t :: ts)) = t :: ts := by
  induction ts generalizing t with
  | nil => rw [spaced_singleton, pieces_of_no_space (h t (by simp)).2]
  | cons t' ts ih =>
    obtain ⟨ht, hts⟩ := List.forall_mem_cons.mp h
    rw [spaced_cons_cons, pieces_append_space ht.2, ih hts]

theorem spaced_ne_nil {t : Token} (ht : t ≠ []) (ts : List Token) : spaced (t :: ts) ≠ [] := by
  cases ts with
  | nil => rwa [spaced_singleton]
  | cons t' ts => simp [spaced_cons_cons]

/-- A line of tokens begins with the first of them. -/
theorem head_spaced {t : Token} (ht : t ≠ []) (ts : List Token) : (spaced (t :: ts)).head? = t.head? := by
  cases ts with
  | nil => rw [spaced_singleton]
  | cons t' ts => rw [spaced_cons_cons, List.head?_append_of_ne_nil _ ht]

/-- A line of tokens ends as the last of them does. -/
theorem getLast_spaced {t : Token} {ts : List Token} (h : ∀ u ∈ t :: ts, IsToken u) :
    ∃ u ∈ t :: ts, (spaced (t :: ts)).getLast? = u.getLast? := by
  induction ts generalizing t with
  | nil => exact ⟨t, List.mem_singleton_self t, by rw [spaced_singleton]⟩
  | cons t' ts ih =>
    obtain ⟨-, hts⟩ := List.forall_mem_cons.mp h
    obtain ⟨u, hu, hlast⟩ := ih hts
    have hne : spaced (t' :: ts) ≠ [] := spaced_ne_nil (hts t' List.mem_cons_self).1 ts
    refine ⟨u, List.mem_cons_of_mem t hu, ?_⟩
    rw [spaced_cons_cons, List.getLast?_append_of_ne_nil _ (List.cons_ne_nil _ _),
      List.getLast?_cons_of_ne_nil hne, hlast]

theorem any_isSpace_of_mem {t : Token} (ht : IsToken t) {o : Option Char} (ho : ∀ c, o = some c → c ∈ t) :
    o.any isSpace = false := by
  cases o with
  | none => rfl
  | some c => exact ht.2 c (ho c rfl)

/-- Tokens with one space between them are the tokens of their line. -/
theorem tokenize_spaced {t : Token} {ts : List Token} (h : ∀ u ∈ t :: ts, IsToken u) :
    tokenize (spaced (t :: ts)) = some (t :: ts) := by
  have ht : IsToken t := h t List.mem_cons_self
  obtain ⟨u, hu, hlast⟩ := getLast_spaced h
  have houter : hasOuterSpace (spaced (t :: ts)) = false := by
    rw [hasOuterSpace, head_spaced ht.1, hlast, any_isSpace_of_mem ht fun c => List.mem_of_mem_head?,
      any_isSpace_of_mem (h u hu) fun c => List.mem_of_mem_getLast?]
    rfl
  have hkept : (t :: ts).filter (fun p => !p.isEmpty) = t :: ts :=
    List.filter_eq_self.mpr fun p hp => by simp [(h p hp).1]
  rw [tokenize, houter, pieces_spaced h, hkept]
  rfl

theorem any_isSpace_regName : ∀ r : RegIdx, (regName r).any isSpace = false := by decide

theorem isToken_regName (r : RegIdx) : IsToken (regName r) :=
  ⟨List.cons_ne_nil _ _, by simpa using any_isSpace_regName r⟩

theorem isSpace_of_isDigit {c : Char} (h : c.isDigit = true) : isSpace c = false := by
  rw [Bool.eq_false_iff]
  intro hspace
  rcases (by simpa [isSpace] using hspace : c = ' ' ∨ c = '\t') with rfl | rfl <;> exact absurd h (by decide)

theorem isToken_decimal (n : Int) : IsToken (decimal n) := by
  have hdigits : ∀ c ∈ Nat.toDigits 10 n.natAbs, isSpace c = false :=
    fun c hc => isSpace_of_isDigit (isDigit_of_mem_decimalDigits hc)
  unfold decimal
  split
  · exact ⟨List.cons_ne_nil _ _, List.forall_mem_cons.mpr ⟨rfl, hdigits⟩⟩
  · exact ⟨Nat.toDigits_ne_nil, hdigits⟩

/-! ## The text of an instruction (R83) -/

/-- The mnemonic of an instruction. -/
def mnemonic : Instr → Token
  | .add _ _ _ => ['A', 'D', 'D']
  | .sub _ _ _ => ['S', 'U', 'B']
  | .and _ _ _ => ['A', 'N', 'D']
  | .or _ _ _ => ['O', 'R']
  | .xor _ _ _ => ['X', 'O', 'R']
  | .not _ _ => ['N', 'O', 'T']
  | .shl _ _ => ['S', 'H', 'L']
  | .shr _ _ => ['S', 'H', 'R']
  | .load _ _ => ['L', 'O', 'A', 'D']
  | .cmp _ _ => ['C', 'M', 'P']
  | .store _ _ => ['S', 'T', 'O', 'R', 'E']
  | .jump _ => ['J', 'U', 'M', 'P']
  | .jz _ => ['J', 'Z']
  | .jnz _ => ['J', 'N', 'Z']
  | .loadi _ => ['L', 'O', 'A', 'D', 'I']
  | .nop => ['N', 'O', 'P']

/-- The operand tokens of an instruction, in the order of R83. -/
def operandTokens : Instr → List Token
  | .add rd rs1 rs2 | .sub rd rs1 rs2 | .and rd rs1 rs2 | .or rd rs1 rs2 | .xor rd rs1 rs2 =>
    [regName rd, regName rs1, regName rs2]
  | .not r r' | .shl r r' | .shr r r' | .load r r' | .cmp r r' | .store r r' => [regName r, regName r']
  | .jump n | .jz n | .jnz n | .loadi n => [decimal n]
  | .nop => []

theorem asmText_eq_spaced (i : Instr) : asmText i = spaced (mnemonic i :: operandTokens i) := by
  cases i <;> simp [asmText, mnemonic, operandTokens, spaced_cons_cons, spaced_singleton]

theorem isToken_mnemonic (i : Instr) : IsToken (mnemonic i) := by
  cases i <;> simp [IsToken, mnemonic, isSpace]

theorem isToken_of_mem_operandTokens (i : Instr) : ∀ t ∈ operandTokens i, IsToken t := by
  cases i <;> simp [operandTokens, isToken_regName, isToken_decimal]

theorem parseTokens_regs2 {m : Token} {f : RegIdx → RegIdx → Instr} (hm : mnemonic2 m = some f) (r r' : RegIdx) :
    parseTokens [m, regName r, regName r'] = some (f r r') := by
  simp only [parseTokens, hm, parseReg_regName]

theorem parseTokens_regs3 {m : Token} {f : RegIdx → RegIdx → RegIdx → Instr} (hm : mnemonic3 m = some f)
    (r r' r'' : RegIdx) : parseTokens [m, regName r, regName r', regName r''] = some (f r r' r'') := by
  simp only [parseTokens, hm, parseReg_regName]

/-- The tokens of an instruction's text name the instruction. -/
theorem parseTokens_asmTokens (i : Instr) : parseTokens (mnemonic i :: operandTokens i) = some i := by
  cases i with
  | add | sub | and | or | xor => exact parseTokens_regs3 rfl _ _ _
  | not | shl | shr | load | cmp | store => exact parseTokens_regs2 rfl _ _
  | jump n | jz n | jnz n | loadi n => exact parseTokens_literal rfl (parseLiteral_decimal n)
  | nop => rfl

/-- What assembles is the canonical word of a well-formed instruction (R82, R84). -/
theorem assembleInstr_eq_some {i : Instr} {w : Word} :
    assembleInstr i = some w ↔ wellFormed i = true ∧ w = encode i := by
  rw [assembleInstr, Option.ite_none_right_eq_some, Option.some_inj, eq_comm (a := w)]

/-- A line that assembles names an instruction, and its word is this instruction's (R82). -/
theorem exists_instr_of_assembleLine {l : Line} {w : Word} (h : assembleLine l = some w) :
    ∃ i : Instr, assembleInstr i = some w := by
  unfold assembleLine at h
  split at h
  · split at h
    · exact ⟨_, h⟩
    · cases h
  · cases h

/-- Settles O6: the text of an instruction has the tokens that name it; and every line is assembled through an
instruction. -/
theorem assemblerAcceptsEverySyntax : Obligations.AssemblerAcceptsEverySyntax := by
  refine ⟨fun i hwf => ?_, fun l w hline => ?_⟩
  · have htokens : tokenize (asmText i) = some (mnemonic i :: operandTokens i) := by
      rw [asmText_eq_spaced]
      exact tokenize_spaced (List.forall_mem_cons.mpr ⟨isToken_mnemonic i, isToken_of_mem_operandTokens i⟩)
    rw [assembleLine_of_parse htokens (parseTokens_asmTokens i)]
    exact assembleInstr_eq_some.mpr ⟨hwf, rfl⟩
  · obtain ⟨i, hi⟩ := exists_instr_of_assembleLine hline
    exact ⟨i, assembleInstr_eq_some.mp hi⟩

end Sys2Proof.Machine
end

section
/-! Memory (20_memory.md §1): the canonical lists are the contents of the 256 cells, one list for each. -/

namespace Sys2Proof.Machine

theorem Memory.wf_writeImage_cells (cells : Vector Word 256) : (Memory.writeImage [] 0 cells.toList).wf = true :=
  Memory.wf_writeImage cells.toList Memory.wf_nil (by simp)

/-- The list written from the contents of the 256 cells reads as these contents. -/
theorem Memory.read_writeImage_cells (cells : Vector Word 256) (a : Addr) :
    (Memory.writeImage [] 0 cells.toList).read a = cells[a.toNat]'a.isLt := by
  rw [Memory.read, Memory.get_writeImage _ _ Memory.wf_nil (by simp)]
  simp [a.isLt]

/-- A canonical list names no cell beyond the last address. -/
theorem Memory.get_above {m : Memory} {lo a : Nat} (hm : Memory.wfFrom lo m = true) (h : Config.memSize ≤ a) :
    Memory.get m a = Memory.unlisted := by
  induction m generalizing lo with
  | nil => rfl
  | cons c rest ih =>
    obtain ⟨-, hlt, -, hrest⟩ := Memory.wfFrom_cons.mp hm
    rw [Memory.get, if_neg (by omega)]
    exact ih hrest

/-- A canonical list that begins at `b` can read as one that begins at `a` only if `b` is not behind `a`. -/
theorem Memory.head_le_of_get_eq {a b : Nat} {v : Word} {rest m' : Memory} (hv : v ≠ Memory.unlisted)
    (hm' : Memory.wfFrom b m' = true) (hget : Memory.get ((a, v) :: rest) a = Memory.get m' a) : b ≤ a := by
  by_contra hlt
  rw [Memory.get_below hm' (by omega), Memory.get, if_pos rfl] at hget
  exact hv hget

/-- Canonical lists that read alike at every key are equal. -/
theorem Memory.eq_of_get_eq {m m' : Memory} {lo lo' : Nat} (hm : Memory.wfFrom lo m = true)
    (hm' : Memory.wfFrom lo' m' = true) (hget : ∀ a, Memory.get m a = Memory.get m' a) : m = m' := by
  induction m generalizing m' lo lo' with
  | nil =>
    cases m' with
    | nil => rfl
    | cons c' rest' =>
      obtain ⟨-, -, hu, -⟩ := Memory.wfFrom_cons.mp hm'
      exact absurd (by simpa [Memory.get] using (hget c'.1).symm) hu
  | cons c rest ih =>
    obtain ⟨a, v⟩ := c
    obtain ⟨-, ha, hv, hrest⟩ := Memory.wfFrom_cons.mp hm
    cases m' with
    | nil => exact absurd (by simpa [Memory.get] using hget a) hv
    | cons c' rest' =>
      obtain ⟨b, u⟩ := c'
      obtain ⟨-, hb, hu, hrest'⟩ := Memory.wfFrom_cons.mp hm'
      have hba : b ≤ a :=
        Memory.head_le_of_get_eq hv (Memory.wfFrom_cons.mpr ⟨le_rfl, hb, hu, hrest'⟩) (hget a)
      have hab : a ≤ b :=
        Memory.head_le_of_get_eq hu (Memory.wfFrom_cons.mpr ⟨le_rfl, ha, hv, hrest⟩) (hget b).symm
      obtain rfl : a = b := le_antisymm hab hba
      have hvu : v = u := by simpa [Memory.get] using hget a
      have hrests : ∀ k, Memory.get rest k = Memory.get rest' k := fun k => by
        by_cases hk : k = a
        · rw [Memory.get_below hrest (by omega), Memory.get_below hrest' (by omega)]
        · simpa [Memory.get, hk] using hget k
      rw [hvu, ih hrest hrest' hrests]

/-- Settles O45: the contents are written as an image from address 0 on; and canonical lists are determined by their
first cells, one after the other. -/
theorem canonicalMemoryIsTheCells : Obligations.CanonicalMemoryIsTheCells := by
  refine ⟨fun g => ?_, fun m m' hm hm' hread => Memory.eq_of_get_eq hm hm' fun k => ?_⟩
  · refine ⟨_, Memory.wf_writeImage_cells (Vector.ofFn fun k => g (BitVec.ofFin k)), fun a => ?_⟩
    rw [Memory.read_writeImage_cells, Vector.getElem_ofFn]
    rfl
  · by_cases hk : k < Config.memSize
    · simpa [Memory.read, Nat.mod_eq_of_lt hk] using hread (BitVec.ofNat 8 k)
    · rw [Memory.get_above hm (by omega), Memory.get_above hm' (by omega)]

end Sys2Proof.Machine
end

section
/-! Reset, Load and the host (70_reset_and_hazards.md): what Reset and Load leave, and the invariant along any list of
operations. -/

namespace Sys2Proof.Machine

/-! ## Reset (R190) -/

/-- Settles O39: every field is the one of `INIT`, and the memory is the list of its cells. -/
theorem resetLeavesPcZeroAndInit : Obligations.ResetLeavesPcZeroAndInit := fun init =>
  ⟨rfl, rfl, rfl, rfl, rfl, rfl, Memory.read_writeImage_cells init.mem⟩

theorem inv_resetWith (init : Init) : (State.resetWith init).Inv :=
  ⟨Memory.wf_writeImage_cells init.mem, fun hloaded => absurd hloaded Bool.false_ne_true⟩

/-- Settles O40: `State.reset` is the Reset at one `INIT`. -/
theorem resetMeetsInvariant : Obligations.ResetMeetsInvariant :=
  ⟨State.reset_eq_resetWith ▸ inv_resetWith initOfReset, inv_resetWith⟩

/-! ## Load of an image (R191) -/

theorem loadImage_of_too_long {ws : List Word} (h : 255 < ws.length) (s : State) :
    loadImage ws s = .refused .programTooLong :=
  if_neg (Nat.not_le_of_lt h)

/-- What Load of an image that fits leaves (R191, R52). -/
theorem loadImage_of_fits {ws : List Word} {s : State} (hm : s.mem.wf = true) (h : ws.length ≤ 255) :
    ∃ t : State, loadImage ws s = .next t ∧ t.mem.wf = true ∧
      (∀ a : Addr, t.mem.read a = (ws[a.toNat]?).getD (s.mem.read a)) ∧
      t.ds.toNat = ws.length ∧ t.pc = 0#8 ∧ t.ir = t.mem.read 0#8 ∧ t.x = s.x ∧ t.f = s.f ∧ t.loaded = true := by
  have hfits : 0 + ws.length ≤ Config.memSize := by simp only [Config.memSize]; omega
  refine ⟨_, loadImage_eq_next h s, Memory.wf_writeImage ws hm hfits, fun a => ?_, ?_, rfl, rfl, rfl, rfl, rfl⟩
  · exact Memory.get_writeImage ws a.toNat hm hfits
  · exact Nat.mod_eq_of_lt (by omega)

/-- Settles O41: an image that fits is installed, a longer one is refused. -/
theorem loadInstallsProgram : Obligations.LoadInstallsProgram := by
  intro ws s hm
  refine ⟨fun hfits => ?_, fun hlong => ?_⟩
  · obtain ⟨t, hnext, -, hleaves⟩ := loadImage_of_fits hm hfits
    exact ⟨t, hnext, hleaves⟩
  · have hrefused := loadImage_of_too_long hlong s
    refine ⟨hrefused, ?_⟩
    rw [HostOp.apply, HostOp.answer, hrefused, stateAfter_refused]

/-- An allowed Step is Execute of the decoded instruction and the Fetch (R101). -/
theorem step_of_mayStep {s : State} (h : s.mayStep) : step s = fetchAfter (exec (decode s.ir) s) := by
  rw [step, stepBar_eq_none.mpr h]

/-- Settles O43: Load leaves the first word in `IR` and `PC` = 0 below `DS`, where a Step is allowed. -/
theorem firstStepRunsWordZero : Obligations.FirstStepRunsWordZero := by
  intro w ws s hm hlen
  obtain ⟨t, hnext, -, hmem, hds, hpc, hir, -, -, hloaded⟩ :=
    loadImage_of_fits (ws := w :: ws) hm (Nat.succ_le_succ hlen)
  have hword : t.ir = w := by rw [hir, hmem]; rfl
  have hmay : t.mayStep := ⟨hloaded, by rw [hpc, hds]; exact Nat.succ_pos _⟩
  exact ⟨t, hnext, hword, by rw [step_of_mayStep hmay, hword]⟩

/-! ## The invariant -/

/-- Execute keeps the memory's canonical form. -/
theorem Effect.wf_mem {i : Instr} {s t : State} (h : Effect i s t) (hm : s.mem.wf = true) : t.mem.wf = true := by
  rcases h.mem_cases with hmem | ⟨-, rs2, a, -, -, hmem⟩
  · rwa [hmem]
  · rw [hmem]
    exact Memory.wf_write hm a (s.reg rs2)

/-- From `PC < DS` Execute leaves `PC <= DS` (R19): one more, or a target below `DS`. -/
theorem Effect.pc_le_ds {i : Instr} {s t : State} (h : Effect i s t) (hlt : s.pc.toNat < s.ds.toNat) :
    t.pc.toNat ≤ t.ds.toNat := by
  rw [h.ds_eq]
  rcases h.pc_cases with hpc | ⟨n, -, hlo, hhi, hpc⟩
  · have hds := s.ds.isLt
    rw [hpc, nextPc_toNat (by omega)]
    exact hlt
  · have htarget := toNat_jumpTarget hlo hhi
    rw [hpc]
    omega

/-- Settles O38: Execute keeps the canonical form and `PC <= DS`, and the Fetch reads `IR` at the new `PC`. -/
theorem stepKeepsInvariant : Obligations.StepKeepsInvariant := by
  rintro s t ⟨hm, -⟩ hstep
  obtain ⟨⟨-, hlt⟩, u, hexec, rfl⟩ := step_eq_next.mp hstep
  have heffect := exec_effect hexec
  exact ⟨heffect.wf_mem hm, fun _ => ⟨heffect.pc_le_ds hlt, rfl⟩⟩

theorem inv_of_loadImage {ws : List Word} {s t : State} (hinv : s.Inv) (h : loadImage ws s = .next t) : t.Inv := by
  rcases Nat.lt_or_ge 255 ws.length with hlong | hfits
  · cases (loadImage_of_too_long hlong s).symm.trans h
  · obtain ⟨hwf, -⟩ := hinv
    obtain ⟨u, hnext, hm, -, -, hpc, hir, -⟩ := loadImage_of_fits hwf hfits
    cases hnext.symm.trans h
    exact ⟨hm, fun _ => ⟨by rw [hpc]; exact Nat.zero_le _, by rw [hpc, hir]⟩⟩

/-- Every host operation that completes leaves a state of the invariant. -/
theorem inv_of_answer {op : HostOp} {s t : State} (hinv : s.Inv) (h : op.answer s = .next t) : t.Inv := by
  cases op with
  | reset init => cases h; exact inv_resetWith init
  | load lines =>
    cases hassemble : assemble lines with
    | some ws => exact inv_of_loadImage hinv ((load_of_assemble_some hassemble s).symm.trans h)
    | none => cases (load_of_assemble_none hassemble s).symm.trans h
  | loadImage ws => exact inv_of_loadImage hinv h
  | step => exact stepKeepsInvariant s t hinv h

/-- Every host operation keeps the invariant: one that errs or is refused changes nothing (R107, R177). -/
theorem inv_apply (op : HostOp) {s : State} (hinv : s.Inv) : (op.apply s).Inv := by
  rw [HostOp.apply]
  cases hanswer : op.answer s with
  | next t => exact inv_of_answer hinv hanswer
  | fault e => exact hinv
  | refused r => exact hinv

/-- Settles O44, by induction on the list of operations. -/
theorem hostOperationsKeepInvariant : Obligations.HostOperationsKeepInvariant := by
  intro ops
  induction ops with
  | nil => exact fun _ hinv => hinv
  | cons op ops ih => exact fun s hinv => ih (op.apply s) (inv_apply op hinv)

end Sys2Proof.Machine
end

section
/-! Single instructions and their pairs (41_arithmetic.md to 45_misc.md): the read-back of a checked write, the shifts,
LOADI, STORE before LOAD, and CMP before JZ. -/

namespace Sys2Proof

/-- Settles O1: the decoder computes these words' instructions. -/
theorem wordsOfTheSpecDecode : Obligations.WordsOfTheSpecDecode := by
  unfold Obligations.WordsOfTheSpecDecode
  decide

end Sys2Proof

namespace Sys2Proof.Machine

/-- Settles O11, by the three outcomes of a checked write. -/
theorem checkedWriteReadsBackClamped : Obligations.CheckedWriteReadsBackClamped := by
  intro v
  rcases clamp_cases v with h | h | ⟨h0, h1⟩
  · rw [checked_high h, if_pos h]
    rfl
  · rw [checked_low h, if_neg (by omega), if_pos h]
    rfl
  · rw [checked_ok h0 h1, if_neg (by omega), if_neg (by omega)]
    exact BitVec.toInt_ofInt_eq_self (by omega) (by omega) (by omega)

/-! ## Shifts (R135, R136, decision D8) -/

theorem toNat_shl16 (p : Word) : (shiftConfig.shl16 p).toNat = p.toNat * 2 % 65536 := by
  simp only [shiftConfig, toNat_append_eq_add, BitVec.extractLsb'_toNat, BitVec.toNat_ofNat]
  omega

theorem toNat_shr16 (p : Word) : (shiftConfig.shr16 p).toNat = p.toNat / 2 := by
  simp only [shiftConfig, toNat_append_eq_add, BitVec.extractLsb'_toNat, BitVec.toNat_ofNat,
    Nat.shiftRight_eq_div_pow]
  omega

/-- A pattern below 0x8000 has the sign bit 0. -/
theorem getLsbD_sign_of_lt {p : Word} (h : p.toNat < 32768) : p.getLsbD 15 = false :=
  Nat.testBit_eq_false_of_lt h

/-- Settles O16: SHL is the raw write of the doubled pattern, with the flags of R130. -/
theorem shlShiftsLeftOnePlace : Obligations.ShlShiftsLeftOnePlace := by
  intro rd rs1 s
  obtain ⟨t, hnext, hreg, hrest⟩ := finishBits_bitFlags rd (shiftConfig.shl16 (s.reg rs1)) s
  exact ⟨decode_fieldWord_shl rd rs1, t, hnext, by rw [hreg, toNat_shl16], hrest⟩

/-- Settles O17: SHR is the raw write of the halved pattern, with the flags of R130; its sign bit is always 0. -/
theorem shrShiftsRightOnePlace : Obligations.ShrShiftsRightOnePlace := by
  intro rd rs1 s
  obtain ⟨t, hnext, hreg, ⟨hzero, hsign⟩, hrest⟩ := finishBits_bitFlags rd (shiftConfig.shr16 (s.reg rs1)) s
  have hhalf : (t.reg rd).toNat = (s.reg rs1).toNat / 2 := by rw [hreg, toNat_shr16]
  have hpositive : t.f.sign = false := by
    have hlt := (s.reg rs1).isLt
    rw [hsign, getLsbD_sign_of_lt (by omega)]
  exact ⟨decode_fieldWord_shr rd rs1, t, hnext, hhalf, ⟨hzero, hsign⟩, hpositive, hrest⟩

/-! ## LOADI (R160) -/

theorem toNat_raw (n : Int) : ((raw n).toNat : Int) = n % 65536 := by
  rw [raw, BitVec.toNat_ofInt]
  omega

theorem toInt_raw {n : Int} (hlo : -2048 ≤ n) (hhi : n ≤ 2047) : (raw n).toInt = n :=
  BitVec.toInt_ofInt_eq_self (by omega) (by omega) (by omega)

theorem exec_loadi (n : Int) (s : State) : exec (.loadi n) s = .next (s.setReg 0 (raw n)).advance := rfl

/-- Settles O25: LOADI is the raw write of its immediate to `x[0]`. -/
theorem loadiWritesImmediateToAx : Obligations.LoadiWritesImmediateToAx := by
  intro n s
  have hreg : (s.setReg 0 (raw n)).advance.reg 0 = raw n := by simp
  refine ⟨decode_loadiWord, _, exec_loadi n s, ?_, fun hlo hhi => ?_, rfl, fun r hne => ?_, fun _ => rfl,
    ⟨rfl, rfl, rfl⟩, pcPlusOne_advance rfl⟩
  · rw [hreg, toNat_raw]
  · rw [hreg, toInt_raw hlo hhi]
  · simp [hne]

/-! ## Pairs of instructions -/

/-- A register whose number lies in the data segment addresses some cell. -/
theorem exists_dataAddr_of_inData {s : State} {rs : RegIdx} (h : InData s (s.reg rs).toInt) :
    ∃ a : Addr, dataAddr s rs = some a :=
  Option.ne_none_iff_exists'.mp fun hnone => dataAddr_eq_none.mp hnone h

/-- Settles O20: STORE keeps the address register and `DS`, so LOAD reads the cell just written. -/
theorem storeThenLoadClampsNegatives : Obligations.StoreThenLoadClampsNegatives := by
  intro ra rv rd s hm hin
  obtain ⟨a, ha⟩ := exists_dataAddr_of_inData hin
  have hload : dataAddr (s.writeMem a (s.reg rv)).advance ra = some a := ha
  refine ⟨_, _, exec_store_of_some ha, exec_load_of_some hload, ?_⟩
  rw [State.advance_reg, State.reg_setReg_same, State.advance_mem, State.writeMem_mem,
    Memory.read_write_same hm, checked_sval]

/-- Settles O24: CMP leaves `zero` set exactly for equal values, and JZ jumps or advances by it. -/
theorem compareThenBranchOnEqual : Obligations.CompareThenBranchOnEqual := by
  intro rs1 rs2 n s hpc hin
  obtain ⟨-, t, hcmp, -, hzero, -, -, -, -, ⟨-, hds, -⟩, hplus⟩ := cmpSetsFlagsOfDifference rs1 rs2 s
  have htpc : t.pc.toNat = s.pc.toNat + 1 := hplus (by omega)
  rw [BitVec.toInt_inj] at hzero
  by_cases heq : s.reg rs1 = s.reg rs2
  · have hint : InCode t ((t.pc.toNat : Int) + n) := by
      rw [InCode, hds, htpc]
      exact_mod_cast hin
    obtain ⟨u, hjump, hupc, -⟩ := jumpTo_of_inCode hint
    refine ⟨t, u, hcmp, (exec_jz_of_zero n (hzero.mpr heq)).trans hjump, ?_⟩
    rw [hupc, htpc, if_pos heq]
    rfl
  · have hclear : t.f.zero = false := Bool.eq_false_iff.mpr (mt hzero.mp heq)
    refine ⟨t, t.advance, hcmp, exec_jz_of_not_zero n hclear, ?_⟩
    rw [State.advance_pc, nextPc_toNat (by omega), htpc, if_neg heq]
    rfl

end Sys2Proof.Machine
end

section
/-! The binary view (10_state.md §6). -/

namespace Sys2Proof.Machine

/-- One more digit of a binary number read most significant first. -/
def readBit (acc : Nat) (c : Char) : Nat := 2 * acc + (if c = '1' then 1 else 0)

/-- The character of one bit. -/
def bitChar {n : Nat} (p : BitVec n) (k : Nat) : Char := if p.getLsbD k then '1' else '0'

theorem binaryView_eq_map {n : Nat} (p : BitVec n) : binaryView p = (List.range n).reverse.map (bitChar p) := rfl

theorem readBit_bitChar {n : Nat} (p : BitVec n) (acc k : Nat) :
    readBit acc (bitChar p k) = 2 * acc + p.toNat / 2 ^ k % 2 := by
  have hbit : p.getLsbD k = decide (p.toNat / 2 ^ k % 2 = 1) := Nat.testBit_eq_decide_div_mod_eq
  rcases Nat.mod_two_eq_zero_or_one (p.toNat / 2 ^ k) with h | h <;> simp [readBit, bitChar, hbit, h]

/-- Reading the characters of the `k` low bits on from `acc`. -/
theorem foldl_readBit {n : Nat} (p : BitVec n) (k acc : Nat) :
    ((List.range k).reverse.map (bitChar p)).foldl readBit acc = acc * 2 ^ k + p.toNat % 2 ^ k := by
  induction k generalizing acc with
  | zero => simp [Nat.mod_one]
  | succ k ih =>
    rw [List.range_succ, List.reverse_append, List.reverse_singleton, List.singleton_append, List.map_cons,
      List.foldl_cons, ih, readBit_bitChar, Nat.mod_pow_succ]
    ring

/-- Settles O46: there is one character a bit, and reading all of them gives the whole pattern. -/
theorem binaryViewSpellsThePattern : Obligations.BinaryViewSpellsThePattern := by
  intro n p
  refine ⟨by simp [binaryView_eq_map], fun c hc => ?_, ?_⟩
  · obtain ⟨k, -, rfl⟩ := List.mem_map.mp hc
    cases p.getLsbD k
    · exact .inl rfl
    · exact .inr rfl
  · calc (binaryView p).foldl readBit 0 = 0 * 2 ^ n + p.toNat % 2 ^ n := foldl_readBit p n 0
      _ = p.toNat := by rw [Nat.zero_mul, Nat.zero_add, Nat.mod_eq_of_lt p.isLt]

end Sys2Proof.Machine
end

section
/-! Rules over all instructions (40_cycle.md §3, 60_exceptions.md §2, 10_state.md §5): when a jump is
taken, what faults, which flags are written, and which are never read. -/

namespace Sys2Proof.Machine

/-! ## Taken jumps -/

/-- The instruction is a jump to `PC + n` that is taken in this state (R151 to R153). -/
def TakesJump (i : Instr) (s : State) (n : Int) : Prop :=
  i = .jump n ∨ i = .jz n ∧ s.f.zero = true ∨ i = .jnz n ∧ s.f.zero = false

theorem exec_of_takesJump {i : Instr} {s : State} {n : Int} (h : TakesJump i s n) : exec i s = jumpTo n s := by
  rcases h with rfl | ⟨rfl, hzero⟩ | ⟨rfl, hzero⟩
  · rfl
  · exact exec_jz_of_zero n hzero
  · exact exec_jnz_of_not_zero n hzero

/-- The negation of `TakesJump`, as the obligations write it: no jump, and no branch whose condition holds. -/
theorem forall_not_takesJump {i : Instr} {s : State} (h : ∀ n, ¬ TakesJump i s n) (n : Int) :
    i ≠ .jump n ∧ (i = .jz n → s.f.zero = false) ∧ (i = .jnz n → s.f.zero = true) := by
  obtain ⟨hjump, hbranches⟩ := not_or.mp (h n)
  obtain ⟨hjz, hjnz⟩ := not_or.mp hbranches
  exact ⟨hjump, fun hi => Bool.eq_false_iff.mpr fun hzero => hjz ⟨hi, hzero⟩,
    fun hi => Bool.ne_false_iff.mp fun hzero => hjnz ⟨hi, hzero⟩⟩

/-- A jump that completes went to a target in the code segment, and wrote no flag (R150). -/
theorem jumpTo_eq_next {n : Int} {s t : State} (h : jumpTo n s = .next t) :
    InCode s ((s.pc.toNat : Int) + n) ∧ (t.pc.toNat : Int) = (s.pc.toNat : Int) + n ∧ t.f = s.f := by
  by_cases hin : InCode s ((s.pc.toNat : Int) + n)
  · obtain ⟨u, hnext, hpc, hflags, -⟩ := jumpTo_of_inCode hin
    cases hnext.symm.trans h
    exact ⟨hin, hpc, hflags⟩
  · cases (jumpTo_of_not_inCode hin).symm.trans h

/-- Settles O28: a taken jump is `JumpTo`, and any other effect on `PC` is `PC + 1`. -/
theorem pcAdvancesOrTakesTestedTarget : Obligations.PcAdvancesOrTakesTestedTarget := by
  intro i s t hexec
  by_cases htakes : ∃ n, TakesJump i s n
  · obtain ⟨n, hn⟩ := htakes
    obtain ⟨hin, hpc, -⟩ := jumpTo_eq_next ((exec_of_takesJump hn).symm.trans hexec)
    exact .inl ⟨n, hn, hin, hpc⟩
  · refine .inr ⟨forall_not_takesJump (not_exists.mp htakes), ?_⟩
    rcases (exec_effect hexec).pc_cases with hpc | ⟨n, hn, -⟩
    · rw [hpc]
      split
      · next htop => rw [show s.pc = 255#8 from BitVec.eq_of_toNat_eq htop, nextPc_top]
      · next htop => exact nextPc_toNat (by have := s.pc.isLt; omega)
    · exact absurd ⟨n, hn⟩ htakes

/-! ## Faults (R171) -/

theorem inData_of_dataAddr {s : State} {rs : RegIdx} {a : Addr} (h : dataAddr s rs = some a) :
    InData s (s.reg rs).toInt := by
  obtain ⟨hlo, hhi, -⟩ := dataAddr_eq_some.mp h
  exact ⟨hlo, hhi⟩

theorem not_inData_of_dataAddr {s : State} {rs : RegIdx} (h : dataAddr s rs = none) :
    ¬ InData s (s.reg rs).toInt :=
  dataAddr_eq_none.mp h

theorem exec_load_eq_fault {rd rs1 : RegIdx} {s : State} {e : Fault} :
    exec (.load rd rs1) s = .fault e ↔
      ¬ InData s (s.reg rs1).toInt ∧ e = .segmentViolation .loadAddress := by
  cases ha : dataAddr s rs1 with
  | none => simp [exec_load_of_none ha, not_inData_of_dataAddr ha, eq_comm]
  | some a => simp [exec_load_of_some ha, inData_of_dataAddr ha]

theorem exec_store_eq_fault {rs1 rs2 : RegIdx} {s : State} {e : Fault} :
    exec (.store rs1 rs2) s = .fault e ↔
      ¬ InData s (s.reg rs1).toInt ∧ e = .segmentViolation .storeAddress := by
  cases ha : dataAddr s rs1 with
  | none => simp [exec_store_of_none ha, not_inData_of_dataAddr ha, eq_comm]
  | some a => simp [exec_store_of_some ha, inData_of_dataAddr ha]

theorem exec_eq_fault_of_takesJump {i : Instr} {s : State} {n : Int} {e : Fault} (h : TakesJump i s n) :
    exec i s = .fault e ↔ ¬ InCode s ((s.pc.toNat : Int) + n) ∧ e = .segmentViolation .jumpTarget := by
  rw [exec_of_takesJump h]
  by_cases hin : InCode s ((s.pc.toNat : Int) + n)
  · obtain ⟨t, hnext, -⟩ := jumpTo_of_inCode hin
    simp [hnext, hin]
  · simp [jumpTo_of_not_inCode hin, hin, eq_comm]

/-- Settles O27: LOAD, STORE and the taken jumps fault on their test, a branch not taken and the others never. -/
theorem violationExactlyOnFailedTest : Obligations.ViolationExactlyOnFailedTest := by
  intro i s e
  constructor
  · intro h
    have of_takes : ∀ {n}, TakesJump i s n → ∃ n, TakesJump i s n ∧
        ¬ InCode s ((s.pc.toNat : Int) + n) ∧ e = .segmentViolation .jumpTarget :=
      fun hn => ⟨_, hn, (exec_eq_fault_of_takesJump hn).mp h⟩
    cases i with
    | add | sub | and | or | xor | not | shl | shr | cmp | loadi | nop => cases h
    | load rd rs1 => exact .inl ⟨rd, rs1, rfl, exec_load_eq_fault.mp h⟩
    | store rs1 rs2 => exact .inr (.inl ⟨rs1, rs2, rfl, exec_store_eq_fault.mp h⟩)
    | jump n => exact .inr (.inr (of_takes (.inl rfl)))
    | jz n =>
      rcases Bool.eq_false_or_eq_true s.f.zero with hzero | hzero
      · exact .inr (.inr (of_takes (.inr (.inl ⟨rfl, hzero⟩))))
      · cases (exec_jz_of_not_zero n hzero).symm.trans h
    | jnz n =>
      rcases Bool.eq_false_or_eq_true s.f.zero with hzero | hzero
      · cases (exec_jnz_of_zero n hzero).symm.trans h
      · exact .inr (.inr (of_takes (.inr (.inr ⟨rfl, hzero⟩))))
  · rintro (⟨rd, rs1, rfl, h⟩ | ⟨rs1, rs2, rfl, h⟩ | ⟨n, hn, h⟩)
    · exact exec_load_eq_fault.mpr h
    · exact exec_store_eq_fault.mpr h
    · exact (exec_eq_fault_of_takesJump hn).mpr h

/-! ## The flags each instruction writes (10_state.md §5) -/

theorem arithFlags_carry_eq_ovf (r : Int) : (arithFlags r).carry = (arithFlags r).ovf := by
  rcases clamp_cases r with h | h | ⟨h0, h1⟩
  · rw [arithFlags_high h]
  · rw [arithFlags_low h]
  · rw [arithFlags_ok h0 h1]

theorem arithFlags_ovf_of_sign {r : Int} (h : (arithFlags r).sign = true) : (arithFlags r).ovf = true := by
  rw [arithFlags_low ((arithFlags_sign_iff r).mp h)]

theorem flags_of_takesJump {i : Instr} {s t : State} {n : Int} (hn : TakesJump i s n) (h : exec i s = .next t) :
    t.f = s.f := by
  obtain ⟨-, -, hflags⟩ := jumpTo_eq_next ((exec_of_takesJump hn).symm.trans h)
  exact hflags

/-- Settles O29, instruction by instruction. -/
theorem flagsWrittenOnlyAsTabled : Obligations.FlagsWrittenOnlyAsTabled := by
  intro i s t h
  cases i with
  | add | sub | cmp => cases h; exact ⟨arithFlags_carry_eq_ovf _, arithFlags_ovf_of_sign⟩
  | and | or | xor | not | shl | shr => cases h; exact ⟨rfl, rfl⟩
  | loadi | nop => cases h; rfl
  | load rd rs1 =>
    cases ha : dataAddr s rs1 with
    | none => cases (exec_load_of_none ha).symm.trans h
    | some a => cases (exec_load_of_some ha).symm.trans h; rfl
  | store rs1 rs2 =>
    cases ha : dataAddr s rs1 with
    | none => cases (exec_store_of_none ha).symm.trans h
    | some a => cases (exec_store_of_some ha).symm.trans h; rfl
  | jump n => exact flags_of_takesJump (.inl rfl) h
  | jz n =>
    rcases Bool.eq_false_or_eq_true s.f.zero with hzero | hzero
    · exact flags_of_takesJump (.inr (.inl ⟨rfl, hzero⟩)) h
    · cases (exec_jz_of_not_zero n hzero).symm.trans h; rfl
  | jnz n =>
    rcases Bool.eq_false_or_eq_true s.f.zero with hzero | hzero
    · cases (exec_jnz_of_zero n hzero).symm.trans h; rfl
    · exact flags_of_takesJump (.inr (.inr ⟨rfl, hzero⟩)) h

/-! ## The flags no instruction reads (10_state.md §5) -/

/-- The two states differ in `ovf`, `carry` and `sign` alone. -/
def DifferInUnread (s s' : State) : Prop := s' = { s with f := s'.f } ∧ s'.f.zero = s.f.zero

/-- The two runs fault alike, or complete in states that differ in the unread flags alone. -/
inductive Alike : Result → Result → Prop
  | next {t t' : State} (h : DifferInUnread t t') : Alike (.next t) (.next t')
  | fault (e : Fault) : Alike (.fault e) (.fault e)

theorem jumpTo_setFlags_alike (n : Int) (s : State) {g : Flags} (hz : g.zero = s.f.zero) :
    Alike (jumpTo n s) (jumpTo n (s.setFlags g)) := by
  by_cases hin : InCode s ((s.pc.toNat : Int) + n)
  · rw [(jumpTo_eq n s).trans (if_pos hin), (jumpTo_eq n (s.setFlags g)).trans (if_pos hin)]
    exact .next ⟨rfl, hz⟩
  · rw [jumpTo_of_not_inCode hin, jumpTo_of_not_inCode (s := s.setFlags g) hin]
    exact .fault _

/-- Execute does not see a change of `ovf`, `carry` and `sign`. -/
theorem exec_setFlags_alike (i : Instr) (s : State) {g : Flags} (hz : g.zero = s.f.zero) :
    Alike (exec i s) (exec i (s.setFlags g)) := by
  cases i with
  | add | sub | cmp | and | or | xor | not | shl | shr => exact .next ⟨rfl, rfl⟩
  | loadi | nop => exact .next ⟨rfl, hz⟩
  | load rd rs1 =>
    cases ha : dataAddr s rs1 with
    | none =>
      rw [exec_load_of_none ha, exec_load_of_none (s := s.setFlags g) ha]
      exact .fault _
    | some a =>
      rw [exec_load_of_some ha, exec_load_of_some (s := s.setFlags g) ha]
      exact .next ⟨rfl, hz⟩
  | store rs1 rs2 =>
    cases ha : dataAddr s rs1 with
    | none =>
      rw [exec_store_of_none ha, exec_store_of_none (s := s.setFlags g) ha]
      exact .fault _
    | some a =>
      rw [exec_store_of_some ha, exec_store_of_some (s := s.setFlags g) ha]
      exact .next ⟨rfl, hz⟩
  | jump n => exact jumpTo_setFlags_alike n s hz
  | jz n =>
    cases hzero : s.f.zero with
    | true =>
      rw [exec_jz_of_zero n hzero, exec_jz_of_zero n (s := s.setFlags g) (hz.trans hzero)]
      exact jumpTo_setFlags_alike n s hz
    | false =>
      rw [exec_jz_of_not_zero n hzero, exec_jz_of_not_zero n (s := s.setFlags g) (hz.trans hzero)]
      exact .next ⟨rfl, hz⟩
  | jnz n =>
    cases hzero : s.f.zero with
    | true =>
      rw [exec_jnz_of_zero n hzero, exec_jnz_of_zero n (s := s.setFlags g) (hz.trans hzero)]
      exact .next ⟨rfl, hz⟩
    | false =>
      rw [exec_jnz_of_not_zero n hzero, exec_jnz_of_not_zero n (s := s.setFlags g) (hz.trans hzero)]
      exact jumpTo_setFlags_alike n s hz

theorem Alike.fault_iff {r r' : Result} (h : Alike r r') (e : Fault) : r = .fault e ↔ r' = .fault e := by
  cases h with
  | next _ => simp
  | fault e' => rfl

theorem Alike.exists_next {r r' : Result} (h : Alike r r') {t : State} (ht : r = .next t) :
    ∃ t' : State, r' = .next t' ∧ DifferInUnread t t' := by
  cases h with
  | next hdiffer => cases ht; exact ⟨_, rfl, hdiffer⟩
  | fault e => cases ht

/-- Settles O30: the second state is the first with other flags and the same `zero`. -/
theorem ovfCarrySignAreNeverRead : Obligations.OvfCarrySignAreNeverRead := by
  intro i s s' hs hz
  have halike : Alike (exec i s) (exec i s') := by
    rw [hs]
    exact exec_setFlags_alike i s hz
  exact ⟨halike.fault_iff, fun t => halike.exists_next⟩

end Sys2Proof.Machine
end

section
/-! The Step (40_cycle.md, 60_exceptions.md §2, 70_reset_and_hazards.md §4): where there is none, what it
keeps, and how a run ends. -/

namespace Sys2Proof.Machine

/-- Settles O32: the two tests of the contract, in their order. -/
theorem stepOutsideTheContractIsRefused : Obligations.StepOutsideTheContractIsRefused := by
  intro s
  refine ⟨fun hloaded => ?_, fun hloaded hfinished => ?_⟩
  · have hbar : stepBar s = some .stepBeforeLoad := if_pos hloaded
    rw [step, hbar]
  · have hbar : stepBar s = some .programFinished := by
      rw [stepBar, if_neg (by simp [hloaded]), if_neg (Nat.not_lt.mpr hfinished)]
    rw [step, hbar]

/-- Settles O34: the host finds the state before the Step that raised, any number of times. -/
theorem violationRepeatsForever : Obligations.ViolationRepeatsForever := by
  intro s k n hfault
  have hstays : hostRun (List.replicate n .step) s = s := by
    induction n with
    | zero => rfl
    | succ n ih => rwa [List.replicate_succ, hostRun, apply_step_of_fault hfault]
  exact ⟨hstays, by rw [hstays]; exact hfault⟩

/-- Execute keeps every word of the code segment: STORE's cell lies in the data segment (R43). -/
theorem Effect.read_code {i : Instr} {s t : State} (h : Effect i s t) {a : Addr} (ha : a.toNat < s.ds.toNat) :
    t.mem.read a = s.mem.read a := by
  rcases h.mem_cases with hmem | ⟨rs1, rs2, b, -, hb, hmem⟩
  · rw [hmem]
  · obtain ⟨hlo, -, hval⟩ := dataAddr_eq_some.mp hb
    have hne : a ≠ b := by
      rintro rfl
      omega
    rw [hmem, Memory.read_write_other _ hne]

/-- Settles O35: Execute keeps them, and the Fetch writes `IR` alone. -/
theorem stepKeepsDsAndCodeSegment : Obligations.StepKeepsDsAndCodeSegment := by
  intro s t hstep
  obtain ⟨-, u, hexec, rfl⟩ := step_eq_next.mp hstep
  have heffect := exec_effect hexec
  exact ⟨heffect.ds_eq, heffect.loaded_eq, fun _ => heffect.read_code⟩

theorem State.done_iff {s : State} : s.done = true ↔ s.pc = s.ds := beq_iff_eq

/-- Settles O36: a taken jump stays below `DS`, so the Step to `DS` is the advance. -/
theorem runEndsOnlyByFallingThrough : Obligations.RunEndsOnlyByFallingThrough := by
  intro s t hstep hdone
  obtain ⟨⟨-, hlt⟩, u, hexec, rfl⟩ := step_eq_next.mp hstep
  have hend : u.pc = s.ds := (State.done_iff.mp hdone).trans (exec_effect hexec).ds_eq
  have hds := s.ds.isLt
  rcases pcAdvancesOrTakesTestedTarget _ s u hexec with ⟨n, -, ⟨-, hhi⟩, hpc⟩ | ⟨hnot, hpc⟩
  · rw [hend] at hpc
    omega
  · rw [if_neg (by omega)] at hpc
    refine ⟨?_, hpc, hnot⟩
    rw [← hpc, hend]

/-! ## How a run ends (R194) -/

theorem runSteps_cons {s u : State} (h : step s = .next u) (k : Nat) : runSteps (k + 1) s = runSteps k u := by
  rw [runSteps, h]

/-- A run of at least one Step that completes begins with a Step that does. -/
theorem exists_step_of_runSteps {k : Nat} {s t : State} (h : runSteps (k + 1) s = .next t) :
    ∃ u, step s = .next u ∧ runSteps k u = .next t := by
  cases hstep : step s with
  | next u => exact ⟨u, rfl, (runSteps_cons hstep k).symm.trans h⟩
  | fault e => rw [runSteps, hstep] at h; cases h
  | refused r => rw [runSteps, hstep] at h; cases h

/-- One Step more is the Step of the state reached. -/
theorem runSteps_succ {k : Nat} {s t : State} (h : runSteps k s = .next t) : runSteps (k + 1) s = step t := by
  induction k generalizing s with
  | zero =>
    cases h
    rw [runSteps]
    cases step t <;> rfl
  | succ k ih =>
    obtain ⟨u, hstep, hrun⟩ := exists_step_of_runSteps h
    rw [runSteps_cons hstep, ih hrun]

/-- A run reaches at most one state from which no Step completes. -/
theorem runSteps_end_unique {k k' : Nat} {s t t' : State} (h : runSteps k s = .next t)
    (hend : ∀ u, step t ≠ .next u) (h' : runSteps k' s = .next t') (hend' : ∀ u, step t' ≠ .next u) :
    t = t' := by
  induction k generalizing s k' with
  | zero =>
    cases h
    cases k' with
    | zero => cases h'; rfl
    | succ k' =>
      obtain ⟨u, hstep, -⟩ := exists_step_of_runSteps h'
      exact absurd hstep (hend u)
  | succ k ih =>
    obtain ⟨u, hstep, hrun⟩ := exists_step_of_runSteps h
    cases k' with
    | zero =>
      cases h'
      exact absurd hstep (hend' u)
    | succ k' => exact ih hrun ((runSteps_cons hstep k').symm.trans h')

/-- At Done the contract allows no Step (R193). -/
theorem not_mayStep_of_done {s : State} (h : s.done = true) : ¬ s.mayStep := fun ⟨_, hlt⟩ => by
  rw [State.done_iff.mp h] at hlt
  exact lt_irrefl _ hlt

/-- A loaded state of the invariant is Done or allows a Step (R19, R193). -/
theorem State.Inv.done_or_mayStep {s : State} (hinv : s.Inv) (hl : s.loaded = true) : s.done = true ∨ s.mayStep := by
  obtain ⟨-, hloaded⟩ := hinv
  obtain ⟨hle, -⟩ := hloaded hl
  rcases hle.lt_or_eq with hlt | heq
  · exact .inr ⟨hl, hlt⟩
  · exact .inl (State.done_iff.mpr (BitVec.eq_of_toNat_eq heq))

/-- After `k` Steps from a loaded state of the invariant the run has completed, has failed, or is at a state of the same
kind that allows a Step. -/
theorem run_progress {s : State} (hinv : s.Inv) (hl : s.loaded = true) (k : Nat) :
    (∃ j t, CompletesIn j s t) ∨ (∃ j t c, FailsAfter j s t c) ∨
      ∃ t, runSteps k s = .next t ∧ t.Inv ∧ t.mayStep := by
  induction k with
  | zero =>
    rcases hinv.done_or_mayStep hl with hdone | hmay
    · exact .inl ⟨0, s, rfl, hdone⟩
    · exact .inr (.inr ⟨s, rfl, hinv, hmay⟩)
  | succ k ih =>
    rcases ih with hcompletes | hfails | ⟨t, hrun, htinv, hmay⟩
    · exact .inl hcompletes
    · exact .inr (.inl hfails)
    · rcases stepIsOkOrViolation t hmay with ⟨u, hstep⟩ | ⟨c, hfault⟩
      · have hrun' : runSteps (k + 1) s = .next u := (runSteps_succ hrun).trans hstep
        have huinv : u.Inv := stepKeepsInvariant t u htinv hstep
        obtain ⟨-, hloaded, -⟩ := stepKeepsDsAndCodeSegment t u hstep
        rcases huinv.done_or_mayStep (hloaded.trans hmay.1) with hdone | hmay'
        · exact .inl ⟨k + 1, u, hrun', hdone⟩
        · exact .inr (.inr ⟨u, hrun', huinv, hmay'⟩)
      · exact .inr (.inl ⟨k, t, c, hrun, hfault⟩)

/-- A run that neither completes nor fails goes on for ever. -/
theorem run_ends_or_runsForever {s : State} (hinv : s.Inv) (hl : s.loaded = true) :
    (∃ k t, CompletesIn k s t) ∨ (∃ k t c, FailsAfter k s t c) ∨ RunsForever s := by
  rw [or_iff_not_imp_left]
  intro hnc
  rw [or_iff_not_imp_left]
  intro hnf k
  obtain ⟨t, hrun, -, hmay⟩ := ((run_progress hinv hl k).resolve_left hnc).resolve_left hnf
  exact ⟨t, hrun, Bool.eq_false_iff.mpr fun hdone => not_mayStep_of_done hdone hmay⟩

/-- Settles O37: some end or none by induction on the Steps; two ends would be one state, at which there is no Step and
yet one that faults. -/
theorem runEndsInExactlyOneWay : Obligations.RunEndsInExactlyOneWay := by
  intro s hinv hl
  refine ⟨run_ends_or_runsForever hinv hl, ?_, ?_, ?_⟩
  · rintro ⟨⟨k, t, hrun, hdone⟩, k', t', c, hrun', hfault⟩
    have hend : ∀ u, step t ≠ .next u := fun u hstep => by
      obtain ⟨hmay, -⟩ := step_eq_next.mp hstep
      exact not_mayStep_of_done hdone hmay
    have hend' : ∀ u, step t' ≠ .next u := by simp [hfault]
    obtain rfl := runSteps_end_unique hrun hend hrun' hend'
    obtain ⟨hmay, -⟩ := step_eq_fault.mp hfault
    exact not_mayStep_of_done hdone hmay
  · rintro ⟨⟨k, t, hrun, hdone⟩, hforever⟩
    obtain ⟨t', hrun', hnot⟩ := hforever k
    cases hrun.symm.trans hrun'
    cases hdone.symm.trans hnot
  · rintro ⟨⟨k, t, c, hrun, hfault⟩, hforever⟩
    obtain ⟨t', hrun', -⟩ := hforever (k + 1)
    cases ((runSteps_succ hrun).trans hfault).symm.trans hrun'

end Sys2Proof.Machine
end
